-- ==== Sys2Proof/Word.lean ====
section
/-! DEFINITION. The machine's words: 8-bit registers and memory bytes, 16-bit addresses and
instruction words (R8, R20, R23, R24), and the register numbers. -/

namespace Sys2Proof

/-- An 8-bit value: a register Vx, a timer, a memory byte, a pixel (R20, R27, R28, R29, R50). -/
abbrev Byte := BitVec 8

/-- A 16-bit value: pc, I, a stack entry, an instruction word (R23, R24, R25, R70). -/
abbrev Word := BitVec 16

/-- The number of a general register, V0 to VF (R20). -/
abbrev Reg := Fin 16

/-- V0, the register Bnnn adds (R143). -/
abbrev V0 : Reg := 0

/-- V15, which some instructions also write as a flag (R21). -/
abbrev VF : Reg := 15

end Sys2Proof
end

