-- ==== Sys2Proof/Config.lean ====
section
/-! DEFINITION. The implementation parameters of R6 that are numbers, and the two free values of the
machine as constants without a body (R172, R194). The parameter FONT is a field of State (log 5). -/

namespace Sys2Proof

/-- `MEM_SIZE`: addresses 0x000 to 0xFFF exist (R6, R50). -/
@[simp] abbrev Config.memSize : Nat := 0x1000

/-- `PROG_BASE`: where a program is loaded and the first instruction is fetched (R6, R51). -/
@[simp] abbrev Config.progBase : Nat := 0x200

/-- `PROG_MAX`: the largest program LOAD accepts, in bytes (R6, R231). -/
@[simp] abbrev Config.progMax : Nat := 0xE00

/-- `FONT_GLYPHS` times `FONT_GLYPH_BYTES`: the bytes 0x000-0x04F hold the font (R6, R36). -/
@[simp] abbrev Config.fontSize : Nat := 80

/-- `FONT_GLYPH_BYTES`: the bytes of one glyph (R6, R36). -/
@[simp] abbrev Config.glyphBytes : Nat := 5

/-- `DISP_W`: columns of the display (R6, R29). -/
@[simp] abbrev Config.dispW : Nat := 64

/-- `DISP_H`: rows of the display (R6, R29). -/
@[simp] abbrev Config.dispH : Nat := 32

/-- The number of pixels, `DISP_W * DISP_H` (R29). -/
@[simp] abbrev Config.dispSize : Nat := 2048

/-- `STACK_DEPTH` (R6, R25). -/
@[simp] abbrev Config.stackDepth : Nat := 16

/-- `NKEYS` (R6, R30). -/
@[simp] abbrev Config.nKeys : Nat := 16

/-- `Rand8()`: the byte of the n-th draw, under no law (R172, D18). DESIGN CHOICE, log 3: a free value,
safe, since nothing can be proved of it. -/
opaque Config.rand8 : Nat → Byte

/-- `KeyChoice(S)`: which of the keys that are down the n-th draw takes, as an index that is reduced
modulo their number (R194, D17). DESIGN CHOICE, log 4: a free value, safe. -/
opaque Config.keyChoice : Nat → Nat

end Sys2Proof
end

