-- ==== Sys2Proof/Syntax.lean ====
section
/-! DEFINITION. The 34 instructions, one constructor per row of spec/opcode_table.json (R2, R74), with
their operands as R71 and R72 give them. An immediate address is the 16-bit value `zext_16(nnn)` and a
sprite height is a number; `WellFormed` says that they fit their fields (log 14). Bits an
instruction ignores (R76) are no operands of it. -/

namespace Sys2Proof

/-- The instruction set (R74). Each docstring gives the row's pattern, its assembler form (R80) and its
rule. -/
inductive Instr where
  /-- 00E0, CLS (R130). -/
  | cls
  /-- 00EE, RET (R140). -/
  | ret
  /-- 1nnn, JP nnn (R141). -/
  | jp (nnn : Word)
  /-- 2nnn, CALL nnn (R142). -/
  | call (nnn : Word)
  /-- 3xnn, SE Vx, nn (R151). -/
  | seImm (x : Reg) (nn : Byte)
  /-- 4xnn, SNE Vx, nn (R152). -/
  | sneImm (x : Reg) (nn : Byte)
  /-- 5xy0, SE Vx, Vy (R153). -/
  | seReg (x y : Reg)
  /-- 9xy0, SNE Vx, Vy (R154). -/
  | sneReg (x y : Reg)
  /-- 6xnn, LD Vx, nn (R161). -/
  | ldImm (x : Reg) (nn : Byte)
  /-- 7xnn, ADD Vx, nn (R162). -/
  | addImm (x : Reg) (nn : Byte)
  /-- 8xy0, LD Vx, Vy (R163). -/
  | ldReg (x y : Reg)
  /-- 8xy1, OR Vx, Vy (R164). -/
  | orReg (x y : Reg)
  /-- 8xy2, AND Vx, Vy (R165). -/
  | andReg (x y : Reg)
  /-- 8xy3, XOR Vx, Vy (R166). -/
  | xorReg (x y : Reg)
  /-- 8xy4, ADD Vx, Vy (R167). -/
  | addReg (x y : Reg)
  /-- 8xy5, SUB Vx, Vy (R168). -/
  | subReg (x y : Reg)
  /-- 8xy6, SHR Vx, Vy; the field y is decoded and not used (R169, R76). -/
  | shr (x y : Reg)
  /-- 8xy7, SUBN Vx, Vy (R170). -/
  | subnReg (x y : Reg)
  /-- 8xyE, SHL Vx, Vy; the field y is decoded and not used (R171, R76). -/
  | shl (x y : Reg)
  /-- Annn, LD I, nnn (R180). -/
  | ldI (nnn : Word)
  /-- Bnnn, JP V0, nnn (R143). -/
  | jpV0 (nnn : Word)
  /-- Cxnn, RND Vx, nn (R172). -/
  | rnd (x : Reg) (nn : Byte)
  /-- Dxyn, DRW Vx, Vy, n (R131). -/
  | drw (x y : Reg) (n : Nat)
  /-- Ex9E, SKP Vx (R155). -/
  | skp (x : Reg)
  /-- ExA1, SKNP Vx (R156). -/
  | sknp (x : Reg)
  /-- Fx07, LD Vx, DT (R190). -/
  | ldVxDt (x : Reg)
  /-- Fx15, LD DT, Vx (R191). -/
  | ldDtVx (x : Reg)
  /-- Fx18, LD ST, Vx (R192). -/
  | ldStVx (x : Reg)
  /-- Fx0A, LD Vx, K (R194). -/
  | ldVxK (x : Reg)
  /-- Fx1E, ADD I, Vx (R181). -/
  | addI (x : Reg)
  /-- Fx29, LD F, Vx (R182). -/
  | ldF (x : Reg)
  /-- Fx33, LD B, Vx (R183). -/
  | ldB (x : Reg)
  /-- Fx55, LD [I], Vx (R184). -/
  | storeRegs (x : Reg)
  /-- Fx65, LD Vx, [I] (R185). -/
  | loadRegs (x : Reg)
  deriving DecidableEq, Repr

end Sys2Proof
end

