-- ==== Sys2Proof/WellFormed.lean ====
section
/-! DEFINITION. Which instructions have an encoding: every operand fits its field of R71. Registers and
immediate bytes fit by their types; an address must be below 0x1000 and a sprite height below 16. -/

namespace Sys2Proof

/-- An immediate address fits the 12-bit field nnn (R71, R72). -/
def fitsNNN (nnn : Word) : Bool := decide (nnn.toNat < 0x1000)

/-- A sprite height fits the 4-bit field n (R71, R72). -/
def fitsN (n : Nat) : Bool := decide (n < 16)

/-- The instruction's operands fit the fields of its encoding (R71, R72). -/
def WellFormed : Instr → Bool
  | .cls => true
  | .ret => true
  | .jp nnn => fitsNNN nnn
  | .call nnn => fitsNNN nnn
  | .seImm _ _ => true
  | .sneImm _ _ => true
  | .seReg _ _ => true
  | .sneReg _ _ => true
  | .ldImm _ _ => true
  | .addImm _ _ => true
  | .ldReg _ _ => true
  | .orReg _ _ => true
  | .andReg _ _ => true
  | .xorReg _ _ => true
  | .addReg _ _ => true
  | .subReg _ _ => true
  | .shr _ _ => true
  | .subnReg _ _ => true
  | .shl _ _ => true
  | .ldI nnn => fitsNNN nnn
  | .jpV0 nnn => fitsNNN nnn
  | .rnd _ _ => true
  | .drw _ _ n => fitsN n
  | .skp _ => true
  | .sknp _ => true
  | .ldVxDt _ => true
  | .ldDtVx _ => true
  | .ldStVx _ => true
  | .ldVxK _ => true
  | .addI _ => true
  | .ldF _ => true
  | .ldB _ => true
  | .storeRegs _ => true
  | .loadRegs _ => true

end Sys2Proof
end

