-- ==== Sys2Proof/Decode.lean ====
section
/-! DEFINITION. Decoding a 16-bit instruction word (R71-R79, R108), and after it the opcode map as a
table (R74), the encoder, the assembler's notation (R80) and the layout of words in memory (R53). -/

namespace Sys2Proof

/-! ## Fields (R71, R72) -/

/-- `t` = op[15:12], the primary opcode (R71). -/
def fieldT (op : Word) : BitVec 4 := op.extractLsb' 12 4

/-- `x` = op[11:8], a register number (R71). -/
def fieldX (op : Word) : Reg := (op.extractLsb' 8 4).toFin

/-- `y` = op[7:4], a register number (R71). -/
def fieldY (op : Word) : Reg := (op.extractLsb' 4 4).toFin

/-- `n` = op[3:0], the sprite height of Dxyn and the secondary opcode of family 0x8 (R71). -/
def fieldN (op : Word) : BitVec 4 := op.extractLsb' 0 4

/-- `nn` = op[7:0], an immediate byte and the secondary opcode of families 0x0, 0xE, 0xF (R71). -/
def fieldNN (op : Word) : Byte := op.extractLsb' 0 8

/-- `nnn` = op[11:0], zero-extended to 16 bits (R71, R72). -/
def fieldNNN (op : Word) : Word := (op.extractLsb' 0 12).setWidth 16

/-! ## Decoding -/

/-- Why a word, or a string of bytes, is no instruction: the spaces of unrecognized words of R77 by
name, and a string of fewer than two bytes (R70). -/
inductive Unrecognized where
  /-- Top nibble 0x0 and a low byte other than 0xE0 and 0xEE; every 0nnn call among them (R77, R78). -/
  | family0
  /-- Top nibble 0x8 and a low nibble that no row has (R77). -/
  | family8
  /-- Top nibble 0xE and a low byte other than 0x9E and 0xA1 (R77). -/
  | familyE
  /-- Top nibble 0xF and a low byte that no row has (R77). -/
  | familyF
  /-- Fewer than two bytes are given: no instruction word is there (R70). -/
  | tooShort
  deriving DecidableEq, Repr

/-- Family 0x0: secondary dispatch on the low byte; bits 11:8 are ignored (R73, R76). -/
def decodeFamily0 (op : Word) : Except Unrecognized Instr :=
  if fieldNN op = 0xE0#8 then .ok .cls
  else if fieldNN op = 0xEE#8 then .ok .ret
  else .error .family0

/-- Family 0x8: secondary dispatch on the low nibble (R73). -/
def decodeFamily8 (op : Word) : Except Unrecognized Instr :=
  if fieldN op = 0x0#4 then .ok (.ldReg (fieldX op) (fieldY op))
  else if fieldN op = 0x1#4 then .ok (.orReg (fieldX op) (fieldY op))
  else if fieldN op = 0x2#4 then .ok (.andReg (fieldX op) (fieldY op))
  else if fieldN op = 0x3#4 then .ok (.xorReg (fieldX op) (fieldY op))
  else if fieldN op = 0x4#4 then .ok (.addReg (fieldX op) (fieldY op))
  else if fieldN op = 0x5#4 then .ok (.subReg (fieldX op) (fieldY op))
  else if fieldN op = 0x6#4 then .ok (.shr (fieldX op) (fieldY op))
  else if fieldN op = 0x7#4 then .ok (.subnReg (fieldX op) (fieldY op))
  else if fieldN op = 0xE#4 then .ok (.shl (fieldX op) (fieldY op))
  else .error .family8

/-- Family 0xE: secondary dispatch on the low byte (R73). -/
def decodeFamilyE (op : Word) : Except Unrecognized Instr :=
  if fieldNN op = 0x9E#8 then .ok (.skp (fieldX op))
  else if fieldNN op = 0xA1#8 then .ok (.sknp (fieldX op))
  else .error .familyE

/-- Family 0xF: secondary dispatch on the low byte (R73). -/
def decodeFamilyF (op : Word) : Except Unrecognized Instr :=
  if fieldNN op = 0x07#8 then .ok (.ldVxDt (fieldX op))
  else if fieldNN op = 0x15#8 then .ok (.ldDtVx (fieldX op))
  else if fieldNN op = 0x18#8 then .ok (.ldStVx (fieldX op))
  else if fieldNN op = 0x0A#8 then .ok (.ldVxK (fieldX op))
  else if fieldNN op = 0x1E#8 then .ok (.addI (fieldX op))
  else if fieldNN op = 0x29#8 then .ok (.ldF (fieldX op))
  else if fieldNN op = 0x33#8 then .ok (.ldB (fieldX op))
  else if fieldNN op = 0x55#8 then .ok (.storeRegs (fieldX op))
  else if fieldNN op = 0x65#8 then .ok (.loadRegs (fieldX op))
  else .error .familyF

/-- `Decode(op)`: dispatch on the top nibble, with a secondary dispatch for four families only (R73,
R108). Total: every word is an instruction or is rejected by the name of its space (R79). -/
def decode (op : Word) : Except Unrecognized Instr :=
  match (fieldT op).toNat with
  | 0x0 => decodeFamily0 op
  | 0x1 => .ok (.jp (fieldNNN op))
  | 0x2 => .ok (.call (fieldNNN op))
  | 0x3 => .ok (.seImm (fieldX op) (fieldNN op))
  | 0x4 => .ok (.sneImm (fieldX op) (fieldNN op))
  | 0x5 => .ok (.seReg (fieldX op) (fieldY op))
  | 0x6 => .ok (.ldImm (fieldX op) (fieldNN op))
  | 0x7 => .ok (.addImm (fieldX op) (fieldNN op))
  | 0x8 => decodeFamily8 op
  | 0x9 => .ok (.sneReg (fieldX op) (fieldY op))
  | 0xA => .ok (.ldI (fieldNNN op))
  | 0xB => .ok (.jpV0 (fieldNNN op))
  | 0xC => .ok (.rnd (fieldX op) (fieldNN op))
  | 0xD => .ok (.drw (fieldX op) (fieldY op) (fieldN op).toNat)
  | 0xE => decodeFamilyE op
  | _ => decodeFamilyF op

/-- The word whose bits 15:8 are `hi` and bits 7:0 are `lo`: `hi ++ lo` of R8. -/
def wordOf (hi lo : Byte) : Word := hi ++ lo

/-- Decode the two bytes at the front of a string, the first being the high byte (R53, R70), and give
back the rest. -/
def decodeBytes : List Byte → Except Unrecognized (Instr × List Byte)
  | hi :: lo :: rest =>
    match decode (wordOf hi lo) with
    | .ok i => .ok (i, rest)
    | .error e => .error e
  | _ => .error .tooShort

/-! ## The opcode map as a table -/

/-- One row of R74: a word w is the row's instruction iff `w &&& mask = pattern`; `build` reads the
operands its format names (R75). -/
structure OpcodeRow where
  /-- The row's mnemonic in spec/opcode_table.json. -/
  mnemonic : String
  mask : Word
  pattern : Word
  build : Word → Instr

/-- Whether a word is the row's instruction (R74). -/
def OpcodeRow.accepts (r : OpcodeRow) (op : Word) : Prop := op &&& r.mask = r.pattern

/-- Rows 1 to 10 of R74. -/
def opcodeRowsA : List OpcodeRow :=
  [⟨"00E0", 0xF0FF, 0x00E0, fun _ => .cls⟩,
   ⟨"00EE", 0xF0FF, 0x00EE, fun _ => .ret⟩,
   ⟨"1nnn", 0xF000, 0x1000, fun w => .jp (fieldNNN w)⟩,
   ⟨"2nnn", 0xF000, 0x2000, fun w => .call (fieldNNN w)⟩,
   ⟨"3xnn", 0xF000, 0x3000, fun w => .seImm (fieldX w) (fieldNN w)⟩,
   ⟨"4xnn", 0xF000, 0x4000, fun w => .sneImm (fieldX w) (fieldNN w)⟩,
   ⟨"5xy0", 0xF000, 0x5000, fun w => .seReg (fieldX w) (fieldY w)⟩,
   ⟨"9xy0", 0xF000, 0x9000, fun w => .sneReg (fieldX w) (fieldY w)⟩,
   ⟨"6xnn", 0xF000, 0x6000, fun w => .ldImm (fieldX w) (fieldNN w)⟩,
   ⟨"7xnn", 0xF000, 0x7000, fun w => .addImm (fieldX w) (fieldNN w)⟩]

/-- Rows 11 to 19 of R74. -/
def opcodeRowsB : List OpcodeRow :=
  [⟨"8xy0", 0xF00F, 0x8000, fun w => .ldReg (fieldX w) (fieldY w)⟩,
   ⟨"8xy1", 0xF00F, 0x8001, fun w => .orReg (fieldX w) (fieldY w)⟩,
   ⟨"8xy2", 0xF00F, 0x8002, fun w => .andReg (fieldX w) (fieldY w)⟩,
   ⟨"8xy3", 0xF00F, 0x8003, fun w => .xorReg (fieldX w) (fieldY w)⟩,
   ⟨"8xy4", 0xF00F, 0x8004, fun w => .addReg (fieldX w) (fieldY w)⟩,
   ⟨"8xy5", 0xF00F, 0x8005, fun w => .subReg (fieldX w) (fieldY w)⟩,
   ⟨"8xy6", 0xF00F, 0x8006, fun w => .shr (fieldX w) (fieldY w)⟩,
   ⟨"8xy7", 0xF00F, 0x8007, fun w => .subnReg (fieldX w) (fieldY w)⟩,
   ⟨"8xyE", 0xF00F, 0x800E, fun w => .shl (fieldX w) (fieldY w)⟩]

/-- Rows 20 to 25 of R74. -/
def opcodeRowsC : List OpcodeRow :=
  [⟨"Annn", 0xF000, 0xA000, fun w => .ldI (fieldNNN w)⟩,
   ⟨"Bnnn", 0xF000, 0xB000, fun w => .jpV0 (fieldNNN w)⟩,
   ⟨"Cxnn", 0xF000, 0xC000, fun w => .rnd (fieldX w) (fieldNN w)⟩,
   ⟨"Dxyn", 0xF000, 0xD000, fun w => .drw (fieldX w) (fieldY w) (fieldN w).toNat⟩,
   ⟨"Ex9E", 0xF0FF, 0xE09E, fun w => .skp (fieldX w)⟩,
   ⟨"ExA1", 0xF0FF, 0xE0A1, fun w => .sknp (fieldX w)⟩]

/-- Rows 26 to 34 of R74. -/
def opcodeRowsD : List OpcodeRow :=
  [⟨"Fx07", 0xF0FF, 0xF007, fun w => .ldVxDt (fieldX w)⟩,
   ⟨"Fx15", 0xF0FF, 0xF015, fun w => .ldDtVx (fieldX w)⟩,
   ⟨"Fx18", 0xF0FF, 0xF018, fun w => .ldStVx (fieldX w)⟩,
   ⟨"Fx0A", 0xF0FF, 0xF00A, fun w => .ldVxK (fieldX w)⟩,
   ⟨"Fx1E", 0xF0FF, 0xF01E, fun w => .addI (fieldX w)⟩,
   ⟨"Fx29", 0xF0FF, 0xF029, fun w => .ldF (fieldX w)⟩,
   ⟨"Fx33", 0xF0FF, 0xF033, fun w => .ldB (fieldX w)⟩,
   ⟨"Fx55", 0xF0FF, 0xF055, fun w => .storeRegs (fieldX w)⟩,
   ⟨"Fx65", 0xF0FF, 0xF065, fun w => .loadRegs (fieldX w)⟩]

/-- The opcode map of R74, in the table's order. -/
def opcodeMap : List OpcodeRow := opcodeRowsA ++ opcodeRowsB ++ opcodeRowsC ++ opcodeRowsD

/-! ## Encoding (R74, R75); the bits an instruction ignores are 0 (R80) -/

/-- The format `tttt nnnn nnnn nnnn` (R75). -/
def encNNN (t : BitVec 4) (nnn : Word) : Word := t ++ nnn.extractLsb' 0 12

/-- The format `tttt xxxx nnnn nnnn` (R75); with a secondary byte for nn it is format X. -/
def encXNN (t : BitVec 4) (x : Reg) (nn : Byte) : Word := t ++ (BitVec.ofFin (w := 4) x ++ nn)

/-- The format `tttt xxxx yyyy nnnn` (R75); with a secondary nibble for n it is format XY. -/
def encXYN (t : BitVec 4) (x y : Reg) (n : BitVec 4) : Word :=
  t ++ (BitVec.ofFin (w := 4) x ++ (BitVec.ofFin (w := 4) y ++ n))

/-- The word of an instruction (R74, R75), with ignored bits 0 (R80). -/
def encode : Instr → Word
  | .cls => encXNN 0x0 0 0xE0
  | .ret => encXNN 0x0 0 0xEE
  | .jp nnn => encNNN 0x1 nnn
  | .call nnn => encNNN 0x2 nnn
  | .seImm x nn => encXNN 0x3 x nn
  | .sneImm x nn => encXNN 0x4 x nn
  | .seReg x y => encXYN 0x5 x y 0x0
  | .sneReg x y => encXYN 0x9 x y 0x0
  | .ldImm x nn => encXNN 0x6 x nn
  | .addImm x nn => encXNN 0x7 x nn
  | .ldReg x y => encXYN 0x8 x y 0x0
  | .orReg x y => encXYN 0x8 x y 0x1
  | .andReg x y => encXYN 0x8 x y 0x2
  | .xorReg x y => encXYN 0x8 x y 0x3
  | .addReg x y => encXYN 0x8 x y 0x4
  | .subReg x y => encXYN 0x8 x y 0x5
  | .shr x y => encXYN 0x8 x y 0x6
  | .subnReg x y => encXYN 0x8 x y 0x7
  | .shl x y => encXYN 0x8 x y 0xE
  | .ldI nnn => encNNN 0xA nnn
  | .jpV0 nnn => encNNN 0xB nnn
  | .rnd x nn => encXNN 0xC x nn
  | .drw x y n => encXYN 0xD x y (BitVec.ofNat 4 n)
  | .skp x => encXNN 0xE x 0x9E
  | .sknp x => encXNN 0xE x 0xA1
  | .ldVxDt x => encXNN 0xF x 0x07
  | .ldDtVx x => encXNN 0xF x 0x15
  | .ldStVx x => encXNN 0xF x 0x18
  | .ldVxK x => encXNN 0xF x 0x0A
  | .addI x => encXNN 0xF x 0x1E
  | .ldF x => encXNN 0xF x 0x29
  | .ldB x => encXNN 0xF x 0x33
  | .storeRegs x => encXNN 0xF x 0x55
  | .loadRegs x => encXNN 0xF x 0x65

/-- A word as memory holds it: the high byte first (R53). -/
def wordBytes (op : Word) : List Byte := [op.extractLsb' 8 8, op.extractLsb' 0 8]

/-! ## The assembler's notation (R80): a convention that defines no behaviour -/

/-- An upper-case hexadecimal digit. -/
def hexDigit (d : Nat) : String :=
  ["0", "1", "2", "3", "4", "5", "6", "7", "8", "9", "A", "B", "C", "D", "E", "F"].getD d ""

/-- A number below 0x1000 in hexadecimal, `0x` prefixed, in a given number of digits (R80). -/
def hexNum (digits v : Nat) : String :=
  match digits with
  | 1 => "0x" ++ hexDigit v
  | 2 => "0x" ++ hexDigit (v / 16) ++ hexDigit (v % 16)
  | _ => "0x" ++ hexDigit (v / 256) ++ hexDigit (v / 16 % 16) ++ hexDigit (v % 16)

/-- The name of a register, `V0` to `VF` (R80). -/
def regName (r : Reg) : String := "V" ++ hexDigit r.val

/-- An instruction in the assembler syntax of R80 (PRESUMED, log 15; it defines no behaviour). -/
def asm : Instr → String
  | .cls => "CLS"
  | .ret => "RET"
  | .jp nnn => "JP " ++ hexNum 3 nnn.toNat
  | .call nnn => "CALL " ++ hexNum 3 nnn.toNat
  | .seImm x nn => "SE " ++ regName x ++ ", " ++ hexNum 2 nn.toNat
  | .sneImm x nn => "SNE " ++ regName x ++ ", " ++ hexNum 2 nn.toNat
  | .seReg x y => "SE " ++ regName x ++ ", " ++ regName y
  | .sneReg x y => "SNE " ++ regName x ++ ", " ++ regName y
  | .ldImm x nn => "LD " ++ regName x ++ ", " ++ hexNum 2 nn.toNat
  | .addImm x nn => "ADD " ++ regName x ++ ", " ++ hexNum 2 nn.toNat
  | .ldReg x y => "LD " ++ regName x ++ ", " ++ regName y
  | .orReg x y => "OR " ++ regName x ++ ", " ++ regName y
  | .andReg x y => "AND " ++ regName x ++ ", " ++ regName y
  | .xorReg x y => "XOR " ++ regName x ++ ", " ++ regName y
  | .addReg x y => "ADD " ++ regName x ++ ", " ++ regName y
  | .subReg x y => "SUB " ++ regName x ++ ", " ++ regName y
  | .shr x y => "SHR " ++ regName x ++ ", " ++ regName y
  | .subnReg x y => "SUBN " ++ regName x ++ ", " ++ regName y
  | .shl x y => "SHL " ++ regName x ++ ", " ++ regName y
  | .ldI nnn => "LD I, " ++ hexNum 3 nnn.toNat
  | .jpV0 nnn => "JP V0, " ++ hexNum 3 nnn.toNat
  | .rnd x nn => "RND " ++ regName x ++ ", " ++ hexNum 2 nn.toNat
  | .drw x y n => "DRW " ++ regName x ++ ", " ++ regName y ++ ", " ++ hexNum 1 n
  | .skp x => "SKP " ++ regName x
  | .sknp x => "SKNP " ++ regName x
  | .ldVxDt x => "LD " ++ regName x ++ ", DT"
  | .ldDtVx x => "LD DT, " ++ regName x
  | .ldStVx x => "LD ST, " ++ regName x
  | .ldVxK x => "LD " ++ regName x ++ ", K"
  | .addI x => "ADD I, " ++ regName x
  | .ldF x => "LD F, " ++ regName x
  | .ldB x => "LD B, " ++ regName x
  | .storeRegs x => "LD [I], " ++ regName x
  | .loadRegs x => "LD " ++ regName x ++ ", [I]"

/-- An item of an assembler source: an instruction, or one of the directives `DW` and `DB` (R80). -/
inductive AsmItem where
  | instr (i : Instr)
  | dw (w : Word)
  | db (b : Byte)
  deriving DecidableEq, Repr

/-- The bytes a source places, in order (R80). -/
def assemble : List AsmItem → List Byte
  | [] => []
  | .instr i :: rest => wordBytes (encode i) ++ assemble rest
  | .dw w :: rest => wordBytes w ++ assemble rest
  | .db b :: rest => b :: assemble rest

/-! ## The host's reading of the decoder -/

/-- The instruction the decoder reads from the word of `nbits` bits whose bits are `w`, bit 0 being
the least significant bit of the (one) word; the word is laid out in memory order first (R53). -/
def decodeTableWord (nbits w : Nat) : Option Instr :=
  match decodeBytes (wordBytes (BitVec.ofNat 16 (w % 2 ^ nbits))) with
  | .ok (i, _) => some i
  | .error _ => none

end Sys2Proof
end

