-- ==== Sys2Proof/Machine/State.lean ====
section
/-! DEFINITION. The machine's state: everything R20-R40 give it, as plain data, with its value after
reset (R38), and the reasons for which a step stops. Three fields are the model's own: `font`, the
parameter FONT (log 5), `draws` (log 3) and `pending` (log 1). -/

namespace Sys2Proof.Machine

/-- The faults of R201, each with the value it records. A fault is state, not a stop of the model: the
meaning or the fetch that raises one takes it (`takeFault`, R107, R202), and the core is then FAULTED.
No step ends in `Host.Outcome.fault` (log 2; safe, since the state after the fault is the spec's). -/
inductive Fault where
  /-- Code 1, an access at an address at or above 0x1000, `a` being the first one in access order; raised
  by fetch, Dxyn, Fx33, Fx55 and Fx65 (R56, R201). Safe. -/
  | memOutOfRange (a : Nat)
  /-- Code 2, raised by 2nnn with sp = 16 (R142, R201). Safe. -/
  | stackOverflow
  /-- Code 3, raised by 00EE with sp = 0 (R140, R201). Safe. -/
  | stackUnderflow
  /-- Code 4, raised by Ex9E and ExA1 with V[x] = `k` >= 16 (R155, R156, R201). Safe. -/
  | keyOutOfRange (k : Byte)
  deriving DecidableEq, Repr

/-- What the model gives no meaning. -/
inductive Refusal where
  /-- An instruction without a meaning; no arm of `exec` answers so. Safe. -/
  | notModelled (mnemonic : String)
  /-- The host issues SETKEY with a key index above 15: a precondition violation for which there is no
  transition (R111, D21). Raised by the transaction SETKEY, by no instruction. Safe. -/
  | setKeyOutOfRange (k : Nat)
  deriving DecidableEq, Repr

/-- The control state of the core (R33, R102). -/
inductive Status where
  | running
  | faulted (reason : Fault)
  deriving DecidableEq, Repr

/-- One record of the diagnostic stream: an unrecognized word and where it was fetched (R35, R110). -/
structure DiagRecord where
  opcode : Word
  pc : Word
  deriving DecidableEq, Repr

/-- What the host can issue (R100). -/
inductive Transaction where
  /-- CYCLE: execute one instruction (R103). -/
  | cycle
  /-- TICK60: decrement both timers (R210). -/
  | tick60
  /-- SETKEY(k, p): key k goes down or up (R111). -/
  | setKey (k : Nat) (p : Bool)
  /-- INIT: reset (R230). -/
  | init
  /-- LOAD(bytes): reset and place a program (R231). -/
  | load (bytes : List Byte)
  deriving DecidableEq, Repr

/-- The state of the machine. -/
structure State where
  /-- V0 to VF (R20, R21). -/
  v : Vector Byte 16
  /-- The index register I (R24). -/
  i : Word
  /-- The program counter (R23). -/
  pc : Word
  /-- The call stack's entries (R25). -/
  stack : Vector Word 16
  /-- The stack pointer, the number of entries in use, 0 to 16 (R26). -/
  sp : Fin 17
  /-- The delay timer DT (R27). -/
  dt : Byte
  /-- The sound timer ST (R28). -/
  st : Byte
  /-- The display buffer (R29): pixel k is `cellsRead offByte disp k`, and only pixels that are not 0 are
  listed (log 8). -/
  disp : List Host.Cell
  /-- The keypad: key k is down (R30). -/
  key : Vector Bool 16
  /-- The redraw flag (R31). -/
  redraw : Bool
  /-- The memory (R32, R50): the byte at a is `cellsRead (resetByte font) mem a`, and only bytes that differ from
  their value after reset are listed (log 7). -/
  mem : List Host.Cell
  /-- RUNNING or FAULTED(reason) (R33). -/
  status : Status
  /-- The diagnostic stream, oldest record first (R35). -/
  diag : List DiagRecord
  /-- The parameter FONT, an argument of the model (R6, R36): no step writes it, and INIT and LOAD put it
  into memory. It stands in the state so that a statement over every state holds for every FONT (log 5). -/
  font : Font
  /-- The model's own: how many free values have been drawn (log 3). -/
  draws : Nat
  /-- The model's own: the transactions the host has issued and the core has not performed, oldest first;
  none means that the host issues CYCLE (R101, log 1). -/
  pending : List Transaction
  deriving DecidableEq, Repr

/-- The state INIT leaves, in which the model begins (R38, R230, R233). `diag`, `draws` and `pending`
begin empty by DESIGN CHOICE (log 9, log 3, log 1); `font` has the default of R36, PRESUMED (log 5). -/
def State.reset : State where
  v := Vector.replicate 16 0
  i := 0
  pc := BitVec.ofNat 16 Config.progBase
  stack := Vector.replicate 16 0
  sp := 0
  dt := 0
  st := 0
  disp := []
  key := Vector.replicate 16 false
  redraw := false
  mem := []
  status := .running
  diag := []
  font := defaultFont
  draws := 0
  pending := []

end Sys2Proof.Machine
end

