-- ==== Sys2Proof/Machine/Memory.lean ====
section
/-! DEFINITION. Memory and display as canonical lists of cells: what an unlisted cell reads as, reading
and writing one cell, and the canonical form. The accesses an instruction makes, with
their bounds check, are in Machine/Ops.lean. -/

namespace Sys2Proof.Machine

/-! ## Cells -/

/-- The byte at `a`: the listed one, or what an unlisted address reads as. -/
def cellsRead (unlisted : Nat → Byte) : List Host.Cell → Nat → Byte
  | [], a => unlisted a
  | (b, w) :: rest, a =>
    if a < b then unlisted a
    else if a = b then w
    else cellsRead unlisted rest a

/-- Write the byte at `a`, keeping addresses rising; writing what an unlisted `a` reads as leaves no
entry. -/
def cellsWrite (unlisted : Nat → Byte) : List Host.Cell → Nat → Byte → List Host.Cell
  | [], a, x => if x = unlisted a then [] else [(a, x)]
  | (b, w) :: rest, a, x =>
    if a < b then (if x = unlisted a then (b, w) :: rest else (a, x) :: (b, w) :: rest)
    else if a = b then (if x = unlisted a then rest else (a, x) :: rest)
    else (b, w) :: cellsWrite unlisted rest a x

/-- The canonical form below `size`: addresses strictly rising and below `size`, and no entry equal to
what an unlisted address reads as. -/
abbrev CellsWf (unlisted : Nat → Byte) (size : Nat) (cells : List Host.Cell) : Prop :=
  cells.Pairwise (fun c e => c.1 < e.1) ∧ ∀ c ∈ cells, c.1 < size ∧ c.2 ≠ unlisted c.1

/-! ## Memory (R50, R51) -/

/-- What a byte of memory holds after reset, and so what an unlisted address reads as: FONT below 80,
and 0 elsewhere (R38, R51). -/
def resetByte (font : Font) (a : Nat) : Byte := if h : a < Config.fontSize then font[a] else 0

/-- Memory is in canonical form, within the address space (R50). -/
abbrev Memory.wf (font : Font) (m : List Host.Cell) : Prop :=
  CellsWf (resetByte font) Config.memSize m

/-- The byte of memory at `a`, which the model's statements read. -/
def memByte (s : State) (a : Nat) : Byte := cellsRead (resetByte s.font) s.mem a

/-- Place bytes from `a` upward, without a bounds check. -/
def placeBytes (font : Font) (m : List Host.Cell) (a : Nat) : List Byte → List Host.Cell
  | [] => m
  | b :: rest => placeBytes font (cellsWrite (resetByte font) m a b) (a + 1) rest

/-! ## Display (R29) -/

/-- What an unlisted pixel is: off (R38). -/
def offByte (_ : Nat) : Byte := 0

/-- The display is in canonical form, within the 2048 pixels (R29). -/
abbrev Display.wf (d : List Host.Cell) : Prop := CellsWf offByte Config.dispSize d

/-- Every pixel is 0 or 1 (R40, R134). -/
abbrev Display.binary (d : List Host.Cell) : Prop := ∀ c ∈ d, c.2 = 1

/-- The pixel `disp[k]`. -/
def pixel (s : State) (k : Nat) : Byte := cellsRead offByte s.disp k

end Sys2Proof.Machine
end

