-- ==== Sys2Proof/Machine/Ops.lean ====
section
/-! DEFINITION. The named operations over registers, memory, stack, keypad, display and status that the
meanings share, among them taking a fault (R107, R202), the one exception of this machine; there is no
return from one (R203). -/

namespace Sys2Proof.Machine

/-- What a step or a meaning answers. -/
abbrev Answer := Host.Outcome State Fault Refusal

/-! ## Registers -/

/-- Read Vx (R20). -/
def readReg (s : State) (x : Reg) : Byte := s.v[x.val]'x.isLt

/-- `V[x] <- b` (R20). -/
def writeReg (s : State) (x : Reg) (b : Byte) : State := { s with v := s.v.set x.val b x.isLt }

/-- `V[0] <- b0; V[1] <- b1; ...` from register number `k` upward, as Fx65 writes them (R185); there is
no register above VF. -/
def writeRegs (s : State) (k : Nat) : List Byte → State
  | [] => s
  | b :: rest => if h : k < 16 then writeRegs (writeReg s ⟨k, h⟩ b) (k + 1) rest else s

/-- The values of V0 to Vx, as Fx55 reads them (R184). -/
def readRegs (s : State) (x : Reg) : List Byte := s.v.toList.take (x.val + 1)

/-- `I <- w` (R24). -/
def setI (s : State) (w : Word) : State := { s with i := w }

/-- `pc <- w` (R109). -/
def setPc (s : State) (w : Word) : State := { s with pc := w }

/-- `pc <- (pc + 2) mod 2^16`: go on with the next instruction (R109). -/
def advance (s : State) : State := setPc s (s.pc + 2)

/-- The pc update of a skip: past the next instruction if the condition holds (R109, R150). -/
def skipIf (s : State) (c : Bool) : State := if c then setPc s (s.pc + 4) else advance s

/-- `DT <- b` (R27). -/
def setDt (s : State) (b : Byte) : State := { s with dt := b }

/-- `ST <- b` (R28). -/
def setSt (s : State) (b : Byte) : State := { s with st := b }

/-- `mem <- m`. -/
def setMem (s : State) (m : List Host.Cell) : State := { s with mem := m }

/-! ## Faults -/

/-- Fault entry: the instruction writes nothing and `status <- FAULTED(reason)`; pc keeps the address of
the instruction. Step 1 of the CYCLE has already cleared redraw (R107, R202, log 17). -/
def takeFault (f : Fault) (s : State) : State := { s with status := .faulted f }

/-- How an instruction ends: with its effect, or with the fault it raised, taken in the state at its
start (R107). -/
def finish (s : State) : Except Fault State → Answer
  | .ok t => .next t
  | .error f => .next (takeFault f s)

/-- The code of a fault (R201, D25). -/
def Fault.code : Fault → Nat
  | .memOutOfRange _ => 1
  | .stackOverflow => 2
  | .stackUnderflow => 3
  | .keyOutOfRange _ => 4

/-- The code of the event InvalidOpcode (R201, D25). -/
def invalidOpcodeCode : Nat := 0

/-! ## Memory (R57) -/

/-- `MemRead(a, 1)`. -/
def memRead (font : Font) (m : List Host.Cell) (a : Nat) : Except Fault Byte :=
  if a < Config.memSize then .ok (cellsRead (resetByte font) m a) else .error (.memOutOfRange a)

/-- `MemWrite(a, 1, b)`. -/
def memWrite (font : Font) (m : List Host.Cell) (a : Nat) (b : Byte) : Except Fault (List Host.Cell) :=
  if a < Config.memSize then .ok (cellsWrite (resetByte font) m a b) else .error (.memOutOfRange a)

/-- Read `n` bytes at `a`, `a + 1`, ...; the first address that does not exist is the one reported
(R201, R204). -/
def memReadAll (font : Font) (m : List Host.Cell) (a : Nat) : Nat → Except Fault (List Byte)
  | 0 => .ok []
  | n + 1 =>
    match memRead font m a with
    | .error f => .error f
    | .ok b =>
      match memReadAll font m (a + 1) n with
      | .error f => .error f
      | .ok rest => .ok (b :: rest)

/-- Write bytes at `a`, `a + 1`, ...; a fault leaves no memory at all, so that nothing is written
(R57, R107). -/
def memWriteAll (font : Font) (m : List Host.Cell) (a : Nat) : List Byte → Except Fault (List Host.Cell)
  | [] => .ok m
  | b :: rest =>
    match memWrite font m a b with
    | .error f => .error f
    | .ok m' => memWriteAll font m' (a + 1) rest

/-- Step 2 of a CYCLE: the word at pc, the byte at the lower address supplying bits 15:8; `pc + 1` is
computed unbounded (R53, R105). -/
def fetch (s : State) : Except Fault Word :=
  match memRead s.font s.mem s.pc.toNat with
  | .error f => .error f
  | .ok hi =>
    match memRead s.font s.mem (s.pc.toNat + 1) with
    | .error f => .error f
    | .ok lo => .ok (hi ++ lo)

/-! ## Stack (R25, R26, D24) -/

/-- `stack[sp] <- pc; sp <- sp + 1`, or StackOverflow when sp = 16 (R142). -/
def pushPc (s : State) : Except Fault State :=
  if h : s.sp.val < 16 then
    .ok { s with stack := s.stack.set s.sp.val s.pc h, sp := ⟨s.sp.val + 1, by omega⟩ }
  else .error .stackOverflow

/-- `stack[sp - 1]` and the state with `sp <- sp - 1`, or StackUnderflow when sp = 0; the entry stays in
place (R140). -/
def popAddr (s : State) : Except Fault (Word × State) :=
  if h : s.sp.val = 0 then .error .stackUnderflow
  else .ok (s.stack[s.sp.val - 1]'(by omega), { s with sp := ⟨s.sp.val - 1, by omega⟩ })

/-! ## Keypad (R30, R193) -/

/-- Whether key `k` is down, or KeyOutOfRange when there is no such key (R155, R156). -/
def readKey (s : State) (k : Byte) : Except Fault Bool :=
  if h : k.toNat < 16 then .ok (s.key[k.toNat]'h) else .error (.keyOutOfRange k)

/-- All key indices, rising. -/
def allKeys : List (Fin 16) := [0, 1, 2, 3, 4, 5, 6, 7, 8, 9, 10, 11, 12, 13, 14, 15]

/-- `S = { k in 0..15 | key[k] == 1 }` (R194). -/
def keysDown (s : State) : List (Fin 16) := allKeys.filter (fun k => s.key[k.val]'k.isLt)

/-! ## Free values -/

/-- `draw Rand8()`: a fresh free byte (R172, D18). -/
def drawRand8 (s : State) : Byte × State := (Config.rand8 s.draws, { s with draws := s.draws + 1 })

/-- A member of a set of keys, by an index that is free when there is more than one (R194, D17). -/
def pickKey (index : Nat) : List (Fin 16) → Option (Fin 16)
  | [] => none
  | [k] => some k
  | k :: k' :: rest => some ((k :: k' :: rest).getD (index % (rest.length + 2)) k)

/-- `draw KeyChoice(S)`: a fresh free member of S, none when S is empty (R194, D17). -/
def drawKey (s : State) : Option (Fin 16 × State) :=
  match pickKey (Config.keyChoice s.draws) (keysDown s) with
  | none => none
  | some k => some (k, { s with draws := s.draws + 1 })

/-! ## Display (R29, R131-R134) -/

/-- The index `y*64+x` of a pixel (R29). -/
def pixelIndex (X Y : Nat) : Nat := Y * Config.dispW + X

/-- Toggle the pixel at column X and row Y, and note whether an on-pixel was erased; a pixel off the
screen is dropped (R131, R132, R134). -/
def togglePixel (X Y : Nat) (d : List Host.Cell × Bool) : List Host.Cell × Bool :=
  if X < Config.dispW ∧ Y < Config.dispH then
    (cellsWrite offByte d.1 (pixelIndex X Y) (cellsRead offByte d.1 (pixelIndex X Y) ^^^ 1),
      d.2 || cellsRead offByte d.1 (pixelIndex X Y) == 1)
  else d

/-- Whether the pixel i columns from the left is set in a sprite byte: bit 7 is the leftmost (R133;
PRESUMED by the spec, log 6). -/
def spriteBit (row : Byte) (i : Nat) : Bool := row.getLsbD (7 - i)

/-- The columns of a sprite row, from the left (R133). -/
def spriteColumns : List Nat := [0, 1, 2, 3, 4, 5, 6, 7]

/-- Draw one sprite byte with its leftmost pixel at column px of row Y (R131). -/
def drawRow (px Y : Nat) (row : Byte) (d : List Host.Cell × Bool) : List Host.Cell × Bool :=
  spriteColumns.foldl (fun d i => if spriteBit row i then togglePixel (px + i) Y d else d) d

/-- Draw sprite bytes, one row each, from row Y downward (R131). -/
def drawRows (px Y : Nat) : List Byte → List Host.Cell × Bool → List Host.Cell × Bool
  | [], d => d
  | row :: rest, d => drawRows px (Y + 1) rest (drawRow px Y row d)

/-- `disp <- d; redraw <- 1` (R31). -/
def setDisp (s : State) (d : List Host.Cell) : State := { s with disp := d, redraw := true }

/-! ## The passes around an instruction -/

/-- Step 1 of a CYCLE: `redraw <- 0` (R104). -/
def clearRedraw (s : State) : State := { s with redraw := false }

/-- InvalidOpcode: append the record and go on (R110). -/
def invalidOpcode (op : Word) (s : State) : State :=
  advance { s with diag := s.diag ++ [⟨op, s.pc⟩] }

end Sys2Proof.Machine
end

