-- ==== Sys2Proof/Machine/Flags.lean ====
section
/-! DEFINITION. Every flag computation of the instruction set: the values 0 and 1 that flag-writing
instructions put into VF (R21), each from exact sums and unsigned comparisons (R8, R173). -/

namespace Sys2Proof.Machine

/-- A flag as the byte VF receives: 1 if it holds, else 0. -/
def flagByte (c : Bool) : Byte := if c then 1 else 0

/-- 8xy4: the carry, `vx + vy > 255` on the exact sum (R167). -/
def carryFlag (vx vy : Byte) : Byte := flagByte (decide (vx.toNat + vy.toNat > 255))

/-- 8xy5 with (vx, vy) and 8xy7 with (vy, vx): no borrow, a strict comparison (R168, R170). -/
def noBorrowFlag (a b : Byte) : Byte := flagByte (decide (a.toNat > b.toNat))

/-- 8xy6: the bit shifted out, bit 0 (R169). -/
def lowBitFlag (vx : Byte) : Byte := flagByte (vx.getLsbD 0)

/-- 8xyE: the bit shifted out, bit 7 (R171). -/
def highBitFlag (vx : Byte) : Byte := flagByte (vx.getLsbD 7)

/-- Fx1E: the index overflow, `I + Vx > 0xFFF` on the exact sum (R181). -/
def indexOverflowFlag (i : Word) (vx : Byte) : Byte := flagByte (decide (i.toNat + vx.toNat > 0xFFF))

/-- The flag-writing ALU operations end so: `VF <- flag`, then `Vx <- result`, then the pc update; with
x = 0xF the result stays (R160). -/
def writeFlagThenResult (s : State) (x : Reg) (flag result : Byte) : State :=
  advance (writeReg (writeReg s VF flag) x result)

end Sys2Proof.Machine
end

