-- ==== Sys2Proof/Machine/Operands.lean ====
section
/-! DEFINITION. The operand forms of the instruction set beyond a register and an immediate: the 8-bit
results (R173), the effective address I + k (R186), the glyph address (R182) and decimal digits
(R183). -/

namespace Sys2Proof.Machine

/-- An exact value reduced to a register's 8 bits (R8, R173). -/
def toByte (v : Nat) : Byte := BitVec.ofNat 8 v

/-- An exact value reduced to the 16 bits of pc and I (R8, R24, R109). -/
def toWord (v : Nat) : Word := BitVec.ofNat 16 v

/-- The exact difference `a - b` reduced modulo 2^8 (R168, R170). -/
def subByte (a b : Byte) : Byte := BitVec.ofInt 8 ((a.toNat : Int) - (b.toNat : Int))

/-- The base of every data access, the address in I, as an unbounded natural (R56, R186). -/
def baseAddr (s : State) : Nat := s.i.toNat

/-- `(i + k) mod 2^16`: I after Fx55 and Fx65 (R184, R185, R186). -/
def postIncrement (i : Word) (k : Nat) : Word := toWord (i.toNat + k)

/-- The address of a glyph, `Vx * 5`, not masked (R182). -/
def glyphAddr (vx : Byte) : Word := toWord (vx.toNat * Config.glyphBytes)

/-- The hundreds, tens and ones of a byte (R183). -/
def decimalDigits (vx : Byte) : List Byte :=
  [toByte (vx.toNat / 100), toByte (vx.toNat / 10 % 10), toByte (vx.toNat % 10)]

end Sys2Proof.Machine
end

