-- ==== Sys2Proof/Machine/Alu.lean ====
section
/-! DEFINITION. Register moves and arithmetic (44_alu.md). Operands are read from the state at the start
of the instruction (R106, R160). -/

namespace Sys2Proof.Machine

/-- 6xnn (R161). -/
def execLdImm (x : Reg) (nn : Byte) (s : State) : Answer := .next (advance (writeReg s x nn))

/-- 7xnn, without a flag (R162). -/
def execAddImm (x : Reg) (nn : Byte) (s : State) : Answer :=
  .next (advance (writeReg s x (toByte ((readReg s x).toNat + nn.toNat))))

/-- 8xy0 (R163). -/
def execLdReg (x y : Reg) (s : State) : Answer := .next (advance (writeReg s x (readReg s y)))

/-- 8xy1, without a flag (R164). -/
def execOrReg (x y : Reg) (s : State) : Answer :=
  .next (advance (writeReg s x (readReg s x ||| readReg s y)))

/-- 8xy2, without a flag (R165). -/
def execAndReg (x y : Reg) (s : State) : Answer :=
  .next (advance (writeReg s x (readReg s x &&& readReg s y)))

/-- 8xy3, without a flag (R166). -/
def execXorReg (x y : Reg) (s : State) : Answer :=
  .next (advance (writeReg s x (readReg s x ^^^ readReg s y)))

/-- 8xy4, with the carry (R167). -/
def execAddReg (x y : Reg) (s : State) : Answer :=
  .next (writeFlagThenResult s x (carryFlag (readReg s x) (readReg s y))
    (toByte ((readReg s x).toNat + (readReg s y).toNat)))

/-- 8xy5, with no-borrow (R168). -/
def execSubReg (x y : Reg) (s : State) : Answer :=
  .next (writeFlagThenResult s x (noBorrowFlag (readReg s x) (readReg s y))
    (subByte (readReg s x) (readReg s y)))

/-- 8xy6: shift Vx right by one; Vy is not used (R169, R76). -/
def execShr (x _y : Reg) (s : State) : Answer :=
  .next (writeFlagThenResult s x (lowBitFlag (readReg s x)) (readReg s x >>> 1))

/-- 8xy7, the reverse subtraction, with no-borrow (R170). -/
def execSubnReg (x y : Reg) (s : State) : Answer :=
  .next (writeFlagThenResult s x (noBorrowFlag (readReg s y) (readReg s x))
    (subByte (readReg s y) (readReg s x)))

/-- 8xyE: shift Vx left by one; Vy is not used (R171, R76). -/
def execShl (x _y : Reg) (s : State) : Answer :=
  .next (writeFlagThenResult s x (highBitFlag (readReg s x)) (readReg s x <<< 1))

/-- Cxnn: a free byte, masked (R172, log 3). -/
def execRnd (x : Reg) (nn : Byte) (s : State) : Answer :=
  .next (advance (writeReg (drawRand8 s).2 x ((drawRand8 s).1 &&& nn)))

end Sys2Proof.Machine
end

