-- ==== Sys2Proof/Machine/Display.lean ====
section
/-! DEFINITION. The display instructions (41_display.md). -/

namespace Sys2Proof.Machine

/-- 00E0: every pixel off, redraw set (R130). -/
def execCls (s : State) : Answer := .next (advance (setDisp s []))

/-- Dxyn: read the n sprite bytes at I, all of them before anything is written (R132), draw them at
(Vx, Vy), and put the collision flag into VF (R131). -/
def execDrw (x y : Reg) (n : Nat) (s : State) : Answer :=
  finish s
    (match memReadAll s.font s.mem (baseAddr s) n with
    | .error f => .error f
    | .ok rows =>
      .ok (advance (writeReg
        (setDisp s (drawRows (readReg s x).toNat (readReg s y).toNat rows (s.disp, false)).1) VF
        (flagByte (drawRows (readReg s x).toNat (readReg s y).toNat rows (s.disp, false)).2))))

end Sys2Proof.Machine
end

