-- ==== Sys2Proof/Machine/Flow.lean ====
section
/-! DEFINITION. Jump, call and return (42_flow.md). -/

namespace Sys2Proof.Machine

/-- 00EE: pop the address of the call and go on after it (R140). -/
def execRet (s : State) : Answer :=
  finish s
    (match popAddr s with
    | .error f => .error f
    | .ok (addr, t) => .ok (setPc t (addr + 2)))

/-- 1nnn (R141). -/
def execJp (nnn : Word) (s : State) : Answer := .next (setPc s nnn)

/-- 2nnn: push the address of this instruction and jump (R142). -/
def execCall (nnn : Word) (s : State) : Answer :=
  finish s
    (match pushPc s with
    | .error f => .error f
    | .ok t => .ok (setPc t nnn))

/-- Bnnn: jump to V0 plus the base, not masked to 12 bits (R143). -/
def execJpV0 (nnn : Word) (s : State) : Answer :=
  .next (setPc s (toWord ((readReg s V0).toNat + nnn.toNat)))

end Sys2Proof.Machine
end

