-- ==== Sys2Proof/Machine/IndexMemory.lean ====
section
/-! DEFINITION. The index register and the memory instructions (45_index_memory.md). An access at or
above 0x1000 raises MemOutOfRange and the instruction writes nothing (R107). -/

namespace Sys2Proof.Machine

/-- Annn (R180). -/
def execLdI (nnn : Word) (s : State) : Answer := .next (advance (setI s nnn))

/-- Fx1E: VF tells whether the exact sum exceeds 0xFFF; I wraps at 16 bits (R181). -/
def execAddI (x : Reg) (s : State) : Answer :=
  .next (advance (setI (writeReg s VF (indexOverflowFlag s.i (readReg s x)))
    (toWord (s.i.toNat + (readReg s x).toNat))))

/-- Fx29 (R182). -/
def execLdF (x : Reg) (s : State) : Answer := .next (advance (setI s (glyphAddr (readReg s x))))

/-- Fx33: store the decimal digits at I, I+1, I+2 (R183). -/
def execLdB (x : Reg) (s : State) : Answer :=
  finish s
    (match memWriteAll s.font s.mem (baseAddr s) (decimalDigits (readReg s x)) with
    | .error f => .error f
    | .ok m => .ok (advance (setMem s m)))

/-- Fx55: store V0..Vx at I..I+x, then advance I (R184). -/
def execStoreRegs (x : Reg) (s : State) : Answer :=
  finish s
    (match memWriteAll s.font s.mem (baseAddr s) (readRegs s x) with
    | .error f => .error f
    | .ok m => .ok (advance (setI (setMem s m) (postIncrement s.i (x.val + 1)))))

/-- Fx65: load V0..Vx from I..I+x, then advance I (R185). -/
def execLoadRegs (x : Reg) (s : State) : Answer :=
  finish s
    (match memReadAll s.font s.mem (baseAddr s) (x.val + 1) with
    | .error f => .error f
    | .ok bytes => .ok (advance (setI (writeRegs s 0 bytes) (postIncrement s.i (x.val + 1)))))

end Sys2Proof.Machine
end

