-- ==== Sys2Proof/Machine/Skip.lean ====
section
/-! DEFINITION. The conditional skips (43_skip.md). -/

namespace Sys2Proof.Machine

/-- 3xnn (R151). -/
def execSeImm (x : Reg) (nn : Byte) (s : State) : Answer := .next (skipIf s (readReg s x == nn))

/-- 4xnn (R152). -/
def execSneImm (x : Reg) (nn : Byte) (s : State) : Answer := .next (skipIf s (readReg s x != nn))

/-- 5xy0 (R153). -/
def execSeReg (x y : Reg) (s : State) : Answer := .next (skipIf s (readReg s x == readReg s y))

/-- 9xy0 (R154). -/
def execSneReg (x y : Reg) (s : State) : Answer := .next (skipIf s (readReg s x != readReg s y))

/-- Ex9E: skip if key Vx is down (R155). -/
def execSkp (x : Reg) (s : State) : Answer :=
  finish s
    (match readKey s (readReg s x) with
    | .error f => .error f
    | .ok down => .ok (skipIf s down))

/-- ExA1: skip if key Vx is up (R156). -/
def execSknp (x : Reg) (s : State) : Answer :=
  finish s
    (match readKey s (readReg s x) with
    | .error f => .error f
    | .ok down => .ok (skipIf s (!down)))

end Sys2Proof.Machine
end

