-- ==== Sys2Proof/Machine/TimersKeys.lean ====
section
/-! DEFINITION. The timer and keypad instructions (46_timers_keys.md). -/

namespace Sys2Proof.Machine

/-- Fx07 (R190). -/
def execLdVxDt (x : Reg) (s : State) : Answer := .next (advance (writeReg s x s.dt))

/-- Fx15 (R191). -/
def execLdDtVx (x : Reg) (s : State) : Answer := .next (advance (setDt s (readReg s x)))

/-- Fx18 (R192). -/
def execLdStVx (x : Reg) (s : State) : Answer := .next (advance (setSt s (readReg s x)))

/-- Fx0A: with no key down nothing changes, so that the next CYCLE executes it again; else Vx takes the
index of a key that is down (R194, R114, log 4). -/
def execLdVxK (x : Reg) (s : State) : Answer :=
  match drawKey s with
  | none => .next s
  | some (k, t) => .next (advance (writeReg t x (toByte k.val)))

end Sys2Proof.Machine
end

