-- ==== Sys2Proof/Machine/Transactions.lean ====
section
/-! DEFINITION. The host's transactions other than CYCLE (R100): INIT, LOAD, TICK60, SETKEY, and the
outputs (R112). -/

namespace Sys2Proof.Machine

/-- One decrement of a timer, floored at 0 (R210). -/
def decrementTimer (b : Byte) : Byte := if b.toNat > 0 then b - 1 else 0

/-- TICK60, in RUNNING and FAULTED alike (R210). -/
def tick60 (s : State) : State := { s with dt := decrementTimer s.dt, st := decrementTimer s.st }

/-- SETKEY(k, p), in RUNNING and FAULTED alike; an index above 15 has no transition (R111). -/
def setKey (k : Nat) (p : Bool) (s : State) : Answer :=
  if h : k < 16 then .next { s with key := s.key.set k p h } else .refused (.setKeyOutOfRange k)

/-- INIT, in any state: every piece of state at its reset value, the font region holding the machine's
FONT (R230, log 5). The diagnostic stream is not
state the core reads and stays (R38); draws stay fresh (R38, log 3), and what the host has yet to issue
is the host's (log 1). -/
def init (s : State) : State :=
  { State.reset with diag := s.diag, font := s.font, draws := s.draws, pending := s.pending }

/-- What LOAD answers to the host; the answer is no state (R231, log 16). -/
inductive LoadResult where
  | ok
  | programTooLarge
  deriving DecidableEq, Repr

/-- LOAD(bytes): the answer to the host, and the state (R231, R232). -/
def load (bytes : List Byte) (s : State) : LoadResult × State :=
  if bytes.length > Config.progMax then (.programTooLarge, s)
  else (.ok, { init s with mem := placeBytes s.font (init s).mem Config.progBase bytes })

/-! ## Outputs (R112) -/

/-- display: the 2048 pixels in order (R29, R112). -/
def displayOut (s : State) : List Byte := (List.range Config.dispSize).map (pixel s)

/-- should_draw (R31, R112). -/
def shouldDraw (s : State) : Bool := s.redraw

/-- sound_timer (R28, R112). -/
def soundTimer (s : State) : Byte := s.st

/-- status (R33, R112). -/
def statusOut (s : State) : Status := s.status

/-- diag (R35, R112). -/
def diagOut (s : State) : List DiagRecord := s.diag

end Sys2Proof.Machine
end

