-- ==== Sys2Proof/Machine/Cycle.lean ====
section
/-! DEFINITION. CYCLE (R103) and the choice of the next transaction (R101). -/

namespace Sys2Proof.Machine

/-- Steps 2 to 5 of a CYCLE, after the redraw clear: fetch, decode, execute (R103, R113). -/
def fetchDecodeExecute (s : State) : Answer :=
  match fetch s with
  | .error f => .next (takeFault f s)
  | .ok op =>
    match decode op with
    | .error _ => .next (invalidOpcode op s)
    | .ok i => exec i s

/-- CYCLE: nothing in FAULTED (R102); else clear redraw, fetch, decode, execute (R103). -/
def cycle (s : State) : Answer :=
  match s.status with
  | .faulted _ => .next s
  | .running => fetchDecodeExecute (clearRedraw s)

/-- Perform one transaction (R100, R101). -/
def perform (t : Transaction) (s : State) : Answer :=
  match t with
  | .cycle => cycle s
  | .tick60 => .next (tick60 s)
  | .setKey k p => setKey k p s
  | .init => .next (init s)
  | .load bytes => .next (load bytes s).2

/-- The next transaction of the host's order and the state without it: the oldest one issued, or CYCLE
when none is (R101, log 1). -/
def nextTransaction (s : State) : Transaction × State :=
  match s.pending with
  | [] => (.cycle, s)
  | t :: rest => (t, { s with pending := rest })

/-- The state with the bytes of one instruction word at pc, ready to be fetched by the very next step: no
transaction pending and RUNNING. A pc from which no word can be fetched (R105) is first set to the
entry point (log 13). -/
def placeInstruction (op : Word) (s : State) : State :=
  { s with
    pc := if s.pc.toNat < 0xFFF then s.pc else BitVec.ofNat 16 Config.progBase
    mem := placeBytes s.font s.mem
      (if s.pc.toNat < 0xFFF then s.pc else BitVec.ofNat 16 Config.progBase).toNat (wordBytes op)
    status := .running
    pending := [] }

end Sys2Proof.Machine
end

