-- ==== Sys2Proof/Machine/Step.lean ====
section
/-! DEFINITION. One step of the machine: the next transaction of the host's order, performed whole (R101). -/

namespace Sys2Proof.Machine

/-- One step: the oldest pending transaction, or a CYCLE when the host has issued nothing else (R101,
log 1). -/
def step (s : State) : Host.Outcome State Fault Refusal :=
  perform (nextTransaction s).1 (nextTransaction s).2

/-- The state whose next step fetches and runs the instruction word `w` (log 13). -/
def State.withFetchWord (s : State) (nbits w : Nat) : State :=
  placeInstruction (BitVec.ofNat 16 (w % 2 ^ nbits)) s

end Sys2Proof.Machine
end

