-- ==== Sys2Proof/Safety.lean ====
section
/-! DEFINITION. The terms the statements use: the invariant, the tables of R22, R109, R184-R186 and R201
read as functions of an instruction, and when a word's row of R74 is its instruction. -/

namespace Sys2Proof.Machine

/-- The invariant every step keeps: memory and display are in canonical form inside their address
spaces, and every pixel is 0 or 1 (R40, R50, R29, R134). The other bounds of R40 hold by the types. -/
abbrev StateInv (s : State) : Prop := Memory.wf s.font s.mem ∧ Display.wf s.disp ∧ Display.binary s.disp

/-- The core executes instructions: it is RUNNING and the host issues CYCLE next (R101, R102). -/
abbrev Ready (s : State) : Prop := s.status = .running ∧ s.pending = []

/-- A row of R74: the words with `op &&& mask = pattern`, and no others, are the row's instruction with
the operands `build` reads. -/
def EncodedBy (mask pattern : Word) (build : Word → Instr) : Prop :=
  ∀ op : Word, op &&& mask = pattern ↔ decode op = .ok (build op)

/-- The word at pc in memory, the byte at the lower address being the high one (R53). -/
def wordAtPc (s : State) : Word := memByte s s.pc.toNat ++ memByte s (s.pc.toNat + 1)

/-- Every piece of the spec's state has its value after INIT, the diagnostic stream apart; FONT is the
machine's parameter (R38, R230, log 5). -/
def ResetValues (t : State) : Prop :=
  (∀ r : Reg, readReg t r = 0) ∧ t.i = 0 ∧ t.pc = 0x200 ∧ (∀ k : Fin 16, t.stack[k.val]'k.isLt = 0) ∧
  t.sp = 0 ∧ t.dt = 0 ∧ t.st = 0 ∧ (∀ k, pixel t k = 0) ∧
  (∀ k : Fin 16, t.key[k.val]'k.isLt = false) ∧ t.redraw = false ∧
  (∀ a, memByte t a = if h : a < 80 then t.font[a] else 0) ∧ t.status = .running

/-- The registers an instruction may write: the column "writes" of R22. -/
def writesReg : Instr → Reg → Bool
  | .cls, _ => false
  | .ret, _ => false
  | .jp _, _ => false
  | .call _, _ => false
  | .seImm _ _, _ => false
  | .sneImm _ _, _ => false
  | .seReg _ _, _ => false
  | .sneReg _ _, _ => false
  | .ldImm x _, r => r == x
  | .addImm x _, r => r == x
  | .ldReg x _, r => r == x
  | .orReg x _, r => r == x
  | .andReg x _, r => r == x
  | .xorReg x _, r => r == x
  | .addReg x _, r => r == x || r == VF
  | .subReg x _, r => r == x || r == VF
  | .shr x _, r => r == x || r == VF
  | .subnReg x _, r => r == x || r == VF
  | .shl x _, r => r == x || r == VF
  | .ldI _, _ => false
  | .jpV0 _, _ => false
  | .rnd x _, r => r == x
  | .drw _ _ _, r => r == VF
  | .skp _, _ => false
  | .sknp _, _ => false
  | .ldVxDt x, r => r == x
  | .ldDtVx _, _ => false
  | .ldStVx _, _ => false
  | .ldVxK x, r => r == x
  | .addI _, r => r == VF
  | .ldF _, _ => false
  | .ldB _, _ => false
  | .storeRegs _, _ => false
  | .loadRegs x, r => decide (r.val ≤ x.val)

/-- What an instruction may change beside registers and pc. -/
structure Effects where
  /-- It writes I (R24). -/
  index : Bool := false
  /-- It writes DT (R27). -/
  delay : Bool := false
  /-- It writes ST (R28). -/
  sound : Bool := false
  /-- It pushes to or pops from the call stack (R25, R26). -/
  stack : Bool := false
  /-- It mutates the display buffer and sets redraw (R29, R31). -/
  display : Bool := false
  /-- It draws a free value (R172, R194). -/
  draw : Bool := false
  /-- The number of bytes it stores at I, I + 1, ... (R58, R186). -/
  stored : Nat := 0

/-- The effects of each instruction, as R24 to R31, R58, R172 and R194 name them. -/
def effects : Instr → Effects
  | .cls => { display := true }
  | .ret => { stack := true }
  | .jp _ => { }
  | .call _ => { stack := true }
  | .seImm _ _ => { }
  | .sneImm _ _ => { }
  | .seReg _ _ => { }
  | .sneReg _ _ => { }
  | .ldImm _ _ => { }
  | .addImm _ _ => { }
  | .ldReg _ _ => { }
  | .orReg _ _ => { }
  | .andReg _ _ => { }
  | .xorReg _ _ => { }
  | .addReg _ _ => { }
  | .subReg _ _ => { }
  | .shr _ _ => { }
  | .subnReg _ _ => { }
  | .shl _ _ => { }
  | .ldI _ => { index := true }
  | .jpV0 _ => { }
  | .rnd _ _ => { draw := true }
  | .drw _ _ _ => { display := true }
  | .skp _ => { }
  | .sknp _ => { }
  | .ldVxDt _ => { }
  | .ldDtVx _ => { delay := true }
  | .ldStVx _ => { sound := true }
  | .ldVxK _ => { draw := true }
  | .addI _ => { index := true }
  | .ldF _ => { index := true }
  | .ldB _ => { stored := 3 }
  | .storeRegs x => { index := true, stored := x.val + 1 }
  | .loadRegs _ => { index := true }

/-- The byte Fx33 stores at I + k: hundreds, tens, ones (R183). -/
def digitByte (vx : Byte) (k : Nat) : Byte :=
  BitVec.ofNat 8 (if k = 0 then vx.toNat / 100 else if k = 1 then vx.toNat / 10 % 10 else vx.toNat % 10)

/-- The byte at a after the n bytes `stored 0`, `stored 1`, ... have been stored at I, I + 1, ...: the
stored one, or what it was before (R58, R59). -/
def byteAfterStore (s : State) (n : Nat) (stored : Nat → Byte) (a : Nat) : Byte :=
  if baseAddr s ≤ a ∧ a < baseAddr s + n then stored (a - baseAddr s) else memByte s a

/-- pc after a skip whose condition is c (R109). -/
def skipPc (s : State) (c : Prop) [Decidable c] : Word := if c then s.pc + 4 else s.pc + 2

/-- pc after an instruction that does not fault: the table of R109. -/
def pcAfter (s : State) : Instr → Word
  | .cls => s.pc + 2
  | .ret => s.stack.toList.getD (s.sp.val - 1) 0 + 2
  | .jp nnn => nnn
  | .call nnn => nnn
  | .seImm x nn => skipPc s (readReg s x = nn)
  | .sneImm x nn => skipPc s (readReg s x ≠ nn)
  | .seReg x y => skipPc s (readReg s x = readReg s y)
  | .sneReg x y => skipPc s (readReg s x ≠ readReg s y)
  | .ldImm _ _ => s.pc + 2
  | .addImm _ _ => s.pc + 2
  | .ldReg _ _ => s.pc + 2
  | .orReg _ _ => s.pc + 2
  | .andReg _ _ => s.pc + 2
  | .xorReg _ _ => s.pc + 2
  | .addReg _ _ => s.pc + 2
  | .subReg _ _ => s.pc + 2
  | .shr _ _ => s.pc + 2
  | .subnReg _ _ => s.pc + 2
  | .shl _ _ => s.pc + 2
  | .ldI _ => s.pc + 2
  | .jpV0 nnn => BitVec.ofNat 16 ((readReg s V0).toNat + nnn.toNat)
  | .rnd _ _ => s.pc + 2
  | .drw _ _ _ => s.pc + 2
  | .skp x => skipPc s (s.key.toList.getD (readReg s x).toNat false = true)
  | .sknp x => skipPc s (s.key.toList.getD (readReg s x).toNat false = false)
  | .ldVxDt _ => s.pc + 2
  | .ldDtVx _ => s.pc + 2
  | .ldStVx _ => s.pc + 2
  | .ldVxK _ => if ∀ k : Fin 16, s.key[k.val]'k.isLt = false then s.pc else s.pc + 2
  | .addI _ => s.pc + 2
  | .ldF _ => s.pc + 2
  | .ldB _ => s.pc + 2
  | .storeRegs _ => s.pc + 2
  | .loadRegs _ => s.pc + 2

/-- The fault of an access to the n bytes at I, I + 1, ...: MemOutOfRange at the first address that does
not exist, if there is one (R201, R204). -/
def accessFault (s : State) (n : Nat) : Option Fault :=
  if 0 < n ∧ 0x1000 < s.i.toNat + n then some (.memOutOfRange (max s.i.toNat 0x1000)) else none

/-- The fault of a skip that reads key Vx (R201). -/
def keyFault (s : State) (x : Reg) : Option Fault :=
  if 16 ≤ (readReg s x).toNat then some (.keyOutOfRange (readReg s x)) else none

/-- The fault an instruction raises in a state, if it raises one: the table of R201. -/
def faultRaised (s : State) : Instr → Option Fault
  | .cls => none
  | .ret => if s.sp.val = 0 then some .stackUnderflow else none
  | .jp _ => none
  | .call _ => if s.sp.val = 16 then some .stackOverflow else none
  | .seImm _ _ => none
  | .sneImm _ _ => none
  | .seReg _ _ => none
  | .sneReg _ _ => none
  | .ldImm _ _ => none
  | .addImm _ _ => none
  | .ldReg _ _ => none
  | .orReg _ _ => none
  | .andReg _ _ => none
  | .xorReg _ _ => none
  | .addReg _ _ => none
  | .subReg _ _ => none
  | .shr _ _ => none
  | .subnReg _ _ => none
  | .shl _ _ => none
  | .ldI _ => none
  | .jpV0 _ => none
  | .rnd _ _ => none
  | .drw _ _ n => accessFault s n
  | .skp x => keyFault s x
  | .sknp x => keyFault s x
  | .ldVxDt _ => none
  | .ldDtVx _ => none
  | .ldStVx _ => none
  | .ldVxK _ => none
  | .addI _ => none
  | .ldF _ => none
  | .ldB _ => accessFault s 3
  | .storeRegs x => accessFault s (x.val + 1)
  | .loadRegs x => accessFault s (x.val + 1)

/-- A sprite of n rows with its top left pixel at column px and row py has the pixel at column X and row
Y set: bit 7 of a row is its leftmost pixel (R131, R133; the bit order is PRESUMED, log 6). -/
abbrev spriteCovers (px py : Nat) (rows : Nat → Byte) (n X Y : Nat) : Prop :=
  px ≤ X ∧ X < px + 8 ∧ py ≤ Y ∧ Y < py + n ∧ (rows (Y - py)).getLsbD (7 - (X - px)) = true

end Sys2Proof.Machine
end

