-- ==== Sys2Proof/Certificates/Slice0/Obligations.lean ====
section
/-! DEFINITION. The statements about the machine, for the provers. Where a clause rests on a decision the
spec marks as its own (D<n> of 92_eei_decisions.md), or on a choice of the model (log <n> of
notes/assumptions/), the docstring names it. -/

open Sys2Proof Sys2Proof.Machine

/-! ## Encoding -/

/-- Encoding loses nothing: every well-formed instruction is decoded from its word again (R74, R75, R80). -/
def Obligations.DecodeOfEncodeIsTheInstruction : Prop :=
  ∀ i : Instr, WellFormed i = true → decode (encode i) = .ok i

/-- Whatever word is decoded, the operands fit their fields (R71, R72). -/
def Obligations.DecodedInstructionIsWellFormed : Prop :=
  ∀ (op : Word) (i : Instr), decode op = .ok i → WellFormed i = true

/-- The fields are the bits R71 says they are. -/
def Obligations.FieldsAreTheStatedBits : Prop :=
  ∀ op : Word,
    (fieldT op).toNat = op.toNat / 4096 ∧ (fieldX op).val = op.toNat / 256 % 16 ∧
    (fieldY op).val = op.toNat / 16 % 16 ∧ (fieldN op).toNat = op.toNat % 16 ∧
    (fieldNN op).toNat = op.toNat % 256 ∧ (fieldNNN op).toNat = op.toNat % 4096

/-- The decoder is the opcode map: its 34 rows, and a word is a row's instruction iff it has the row's
pattern under its mask (R74, with decisions D8 and D9). -/
def Obligations.OpcodeMapRowsAreTheDecoder : Prop :=
  opcodeMap.length = 34 ∧
  ∀ r ∈ opcodeMap, ∀ op : Word, r.accepts op ↔ decode op = .ok (r.build op)

/-- No word matches two rows of the opcode map (R79). -/
def Obligations.NoWordMatchesTwoRows : Prop :=
  opcodeMap.Pairwise fun r r' => ∀ op : Word, ¬ (r.accepts op ∧ r'.accepts op)

/-- The words that are no instruction are exactly those of R77, each rejected by the name of its space
(decisions D8 and D9). -/
def Obligations.UnrecognizedWordsAreExactlyThese : Prop :=
  ∀ op : Word,
    (decode op = .error .family0 ↔ fieldT op = 0x0 ∧ fieldNN op ∉ [0xE0#8, 0xEE#8]) ∧
    (decode op = .error .family8 ↔
      fieldT op = 0x8 ∧ fieldN op ∈ [0x8#4, 0x9#4, 0xA#4, 0xB#4, 0xC#4, 0xD#4, 0xF#4]) ∧
    (decode op = .error .familyE ↔ fieldT op = 0xE ∧ fieldNN op ∉ [0x9E#8, 0xA1#8]) ∧
    (decode op = .error .familyF ↔
      fieldT op = 0xF ∧
        fieldNN op ∉ [0x07#8, 0x0A#8, 0x15#8, 0x18#8, 0x1E#8, 0x29#8, 0x33#8, 0x55#8, 0x65#8]) ∧
    decode op ≠ .error .tooShort

/-- The bits R76 calls ignored do not matter, and in the other families every bit is used (decision D8). -/
def Obligations.IgnoredBitsDoNotMatter : Prop :=
  (∀ op : Word, fieldT op = 0x5 ∨ fieldT op = 0x9 → decode op = decode (op &&& 0xFFF0)) ∧
  (∀ op : Word, fieldT op = 0x0 → decode op = decode (op &&& 0xF0FF)) ∧
  (∀ (x y y' : Reg) (s : State),
    exec (.shr x y) s = exec (.shr x y') s ∧ exec (.shl x y) s = exec (.shl x y') s) ∧
  ∀ (op : Word) (i : Instr),
    fieldT op ∈ [0x1#4, 0x2#4, 0x3#4, 0x4#4, 0x6#4, 0x7#4, 0xA#4, 0xB#4, 0xC#4, 0xD#4] →
    decode op = .ok i → encode i = op

/-- A word lies in memory with its high byte first, and its two bytes decode to its instruction (R53, R70). -/
def Obligations.WordsLieHighByteFirst : Prop :=
  (∀ hi lo : Byte, (wordOf hi lo).toNat = hi.toNat * 256 + lo.toNat) ∧
  ∀ (i : Instr) (rest : List Byte), WellFormed i = true →
    decodeBytes (wordBytes (encode i) ++ rest) = .ok (i, rest)

/-- Words of each family, written out from R74, decode to what they stand for. -/
def Obligations.SampleWordsDecode : Prop :=
  decode 0x0AE0 = .ok .cls ∧ decode 0x2208 = .ok (.call 0x208) ∧ decode 0x912F = .ok (.sneReg 1 2) ∧
  decode 0x812E = .ok (.shl 1 2) ∧ decode 0xD013 = .ok (.drw 0 1 3) ∧ decode 0xFF65 = .ok (.loadRegs 15) ∧
  decode 0xF20A = .ok (.ldVxK 2) ∧ decode 0xEFA1 = .ok (.sknp 15) ∧ decode 0xF000 = .error .familyF

/-! ## The machine around an instruction -/

/-- A step runs the decoded instruction: in RUNNING, when the host issues CYCLE next and the word at pc
decodes to i, the step is exec of i on the state with redraw cleared (R103, R104, R105). A CYCLE the
host has issued explicitly (log 1) is taken off its list. -/
def Obligations.StepRunsTheDecodedInstruction : Prop :=
  ∀ (s : State) (i : Instr), s.status = .running → s.pc.toNat ≤ 0xFFE →
    decode (wordAtPc s) = .ok i →
    (s.pending = [] → step s = exec i { s with redraw := false }) ∧
    ∀ rest, s.pending = .cycle :: rest →
      step s = exec i { s with redraw := false, pending := rest }

/-- A fetch inside memory reads two bytes, high byte first, at an even or an odd pc; a fetch whose
second byte or whose pc is at or above 0x1000 is the fault MemOutOfRange with the first such address,
and nothing but redraw and status changes (R53, R105, R107; decisions D2, D3, D22). -/
def Obligations.FetchIsBigEndianAndBounded : Prop :=
  ∀ s : State,
    (s.pc.toNat ≤ 0xFFE → ∃ op, fetch s = .ok op ∧
      op.toNat = (memByte s s.pc.toNat).toNat * 256 + (memByte s (s.pc.toNat + 1)).toNat) ∧
    (Ready s → 0xFFF ≤ s.pc.toNat →
      step s = .next
        { s with redraw := false, status := .faulted (.memOutOfRange (max s.pc.toNat 0x1000)) })

/-- An unrecognized word is recorded with its pc and skipped, and nothing else changes but the redraw
clear (R110; decisions D7, D25). -/
def Obligations.UnrecognizedWordIsRecordedAndSkipped : Prop :=
  ∀ (s : State) (e : Unrecognized), Ready s → s.pc.toNat ≤ 0xFFE → decode (wordAtPc s) = .error e →
    step s = .next
      { s with redraw := false, pc := s.pc + 2, diag := s.diag ++ [⟨wordAtPc s, s.pc⟩] }

/-- In FAULTED a CYCLE has no effect at all (R102; decision D3). -/
def Obligations.FaultedCoreIgnoresCycle : Prop :=
  ∀ (s : State) (f : Fault), s.status = .faulted f →
    (s.pending = [] → step s = .next s) ∧
    ∀ rest, s.pending = .cycle :: rest → step s = .next { s with pending := rest }

/-- FAULTED is left only by INIT and by a LOAD that succeeds, and both leave it (R102, R203; decision D3). -/
def Obligations.FaultedIsLeftOnlyByInitOrLoad : Prop :=
  ∀ (s t : State) (f : Fault), s.status = .faulted f → step s = .next t →
    (t.status ≠ .faulted f ↔
      (∃ rest, s.pending = .init :: rest) ∨
      ∃ bytes rest, s.pending = .load bytes :: rest ∧ bytes.length ≤ 0xE00) ∧
    (t.status ≠ .faulted f → t.status = .running)

/-- Every instruction either raises the fault R201 names for it, and then only status changes (R107,
R202; decisions D2 to D6), or it completes and status stays. -/
def Obligations.InstructionsCompleteOrFaultAsTabulated : Prop :=
  ∀ (i : Instr) (s : State),
    (∀ f, faultRaised s i = some f → exec i s = .next { s with status := .faulted f }) ∧
    (faultRaised s i = none → ∃ t, exec i s = .next t ∧ t.status = s.status)

/-- No step of the machine stops, except that a SETKEY with an index above 15 is refused (R111, R205;
decisions D3, D21). -/
def Obligations.StepStopsOnlyOnSetKeyOutOfRange : Prop :=
  ∀ s : State,
    (∃ t, step s = .next t) ∨
    ∃ k p rest, s.pending = .setKey k p :: rest ∧ 16 ≤ k ∧ step s = .refused (.setKeyOutOfRange k)

/-- Every step keeps memory and display canonical and inside their spaces, and every pixel 0 or 1 (R40,
R134). -/
def Obligations.StepKeepsInvariant : Prop :=
  ∀ s t : State, StateInv s → step s = .next t → StateInv t

/-- The invariant holds after reset. -/
def Obligations.ResetMeetsInvariant : Prop := StateInv State.reset

/-- After INIT, from any state, every piece of state has its reset value, and the diagnostic stream is
unchanged; the reset state of the model has the same values (R38, R230; decisions D3, D25). The font
region has the bytes of the machine's FONT, whatever they are, and FONT stays (log 5); the host's
transactions go on (log 1). -/
def Obligations.InitResetsEveryPieceOfState : Prop :=
  ResetValues State.reset ∧
  ∀ (s : State) (rest : List Transaction), s.pending = .init :: rest →
    ∃ t, step s = .next t ∧ ResetValues t ∧ t.diag = s.diag ∧ t.font = s.font ∧ t.pending = rest

/-- LOAD of at most 3584 bytes resets and places the bytes at 0x200, every other byte being as after
reset (the font region with the machine's FONT, log 5), so that the first fetch reads the program's first two bytes; a larger LOAD answers
ProgramTooLarge and changes nothing (R231, R232; decisions D19, D34). -/
def Obligations.LoadResetsAndPlacesTheProgram : Prop :=
  ∀ (bytes : List Byte) (s : State),
    (bytes.length ≤ 0xE00 → ∃ t, load bytes s = (.ok, t) ∧ t = { init s with mem := t.mem } ∧
      (∀ a, memByte t a =
        if 0x200 ≤ a ∧ a < 0x200 + bytes.length then bytes.getD (a - 0x200) 0
        else if h : a < 80 then s.font[a] else 0) ∧
      (2 ≤ bytes.length → fetch t = .ok (bytes.getD 0 0 ++ bytes.getD 1 0))) ∧
    (0xE00 < bytes.length → load bytes s = (.programTooLarge, s)) ∧
    ∀ rest, s.pending = .load bytes :: rest →
      step s = .next (load bytes { s with pending := rest }).2

/-- TICK60 decrements both timers, floored at 0, and changes nothing else, in RUNNING and FAULTED alike
(R210; decision D26). -/
def Obligations.TickDecrementsBothTimers : Prop :=
  ∀ (s : State) (rest : List Transaction), s.pending = .tick60 :: rest →
    ∃ t, step s = .next t ∧ t.dt.toNat = s.dt.toNat - 1 ∧ t.st.toNat = s.st.toNat - 1 ∧
      t = { s with dt := t.dt, st := t.st, pending := rest }

/-- SETKEY sets its key and changes nothing else, in RUNNING and FAULTED alike; an index above 15 is
refused (R111; decision D21). -/
def Obligations.SetKeySetsOneKey : Prop :=
  ∀ (s : State) (k : Nat) (p : Bool) (rest : List Transaction), s.pending = .setKey k p :: rest →
    (k < 16 → ∃ t, step s = .next t ∧
      (∀ j : Fin 16, t.key[j.val]'j.isLt = if j.val = k then p else s.key[j.val]'j.isLt) ∧
      t = { s with key := t.key, pending := rest }) ∧
    (16 ≤ k → step s = .refused (.setKeyOutOfRange k))

/-- After a CYCLE in RUNNING, redraw is 1 iff its instruction was 00E0 or Dxyn and completed (R104). -/
def Obligations.RedrawTellsThatADisplayInstructionCompleted : Prop :=
  ∀ s t : State, Ready s → step s = .next t →
    (t.redraw = true ↔ t.status = .running ∧ s.pc.toNat ≤ 0xFFE ∧
      ∃ i, decode (wordAtPc s) = .ok i ∧ (effects i).display = true)

/-- pc after every instruction that does not fault is the table of R109 (decision D32). -/
def Obligations.PcFollowsTheTable : Prop :=
  ∀ (i : Instr) (s : State), faultRaised s i = none →
    ∃ t, exec i s = .next t ∧ t.pc = pcAfter s i

/-! ## Frames -/

/-- An instruction writes no register but those R22 tabulates for it; VF is among them only for the
flag-writing instructions and as a destination (R21, R22; decision D10). -/
def Obligations.RegistersAreWrittenOnlyAsTabulated : Prop :=
  ∀ (i : Instr) (s t : State) (r : Reg), exec i s = .next t → writesReg i r = false →
    readReg t r = readReg s r

/-- Every piece of state but the registers and pc, which have statements of their own, changes only under
the instructions R24 to R32 and R37 name, memory being read byte by byte and the display pixel by pixel:
status changes only by a fault (R37, R202; decision D3), the keypad, the diagnostic stream, the
parameter FONT (a field by log 5) and the host's transactions (a field by log 1) under no instruction
(R30, R35), and the model's count of draws (log 3) only under an instruction that draws a free value. -/
def Obligations.OtherStateChangesOnlyAsTabulated : Prop :=
  ∀ (i : Instr) (s t : State), exec i s = .next t →
    ((effects i).index = false → t.i = s.i) ∧ ((effects i).delay = false → t.dt = s.dt) ∧
    ((effects i).sound = false → t.st = s.st) ∧
    ((effects i).stack = false → t.stack = s.stack ∧ t.sp = s.sp) ∧
    ((effects i).display = false → (∀ k, pixel t k = pixel s k) ∧ t.redraw = s.redraw) ∧
    ((effects i).stored = 0 → ∀ a, memByte t a = memByte s a) ∧
    ((effects i).draw = false → t.draws = s.draws) ∧
    (faultRaised s i = none → t.status = s.status) ∧
    t.key = s.key ∧ t.diag = s.diag ∧ t.font = s.font ∧ t.pending = s.pending

/-- A store changes only the bytes at I, I+1, ... it stores to: three for Fx33, x+1 for Fx55, none for
any other instruction (R58, R186). -/
def Obligations.StoresChangeOnlyTheirBytes : Prop :=
  ∀ (i : Instr) (s t : State) (a : Nat), Memory.wf s.font s.mem → exec i s = .next t →
    ¬ (baseAddr s ≤ a ∧ a < baseAddr s + (effects i).stored) → memByte t a = memByte s a

/-- ST, the diagnostic stream and the host's transactions are read by no instruction: changing them
changes nothing else of what an instruction does (R28, R35). -/
def Obligations.OutputsAreReadByNoInstruction : Prop :=
  ∀ (i : Instr) (s t : State) (b : Byte) (d : List DiagRecord) (q : List Transaction),
    exec i s = .next t →
    exec i { s with st := b, diag := d, pending := q } =
      .next { t with st := if (effects i).sound then t.st else b, diag := d, pending := q }

/-! ## Display -/

/-- 00E0 turns every pixel off, sets redraw and changes nothing else; VF is unchanged (R130; decision
D8 for the ignored bits). -/
def Obligations.ClearTurnsEveryPixelOff : Prop :=
  EncodedBy 0xF0FF 0x00E0 (fun _ => .cls) ∧
  ∀ s : State, ∃ t, exec .cls s = .next t ∧ (∀ k, pixel t k = 0) ∧
    t = { s with disp := t.disp, redraw := true, pc := s.pc + 2 }

/-- Dxyn toggles exactly the pixels of the screen its sprite has set, puts into VF whether one of them
was on, sets redraw and changes nothing else; a row at or above 0x1000 is a fault, on screen or not
(R131, R132, R133; decisions D2, D13, D14, D15, D30; the bit order is PRESUMED, log 6). -/
def Obligations.DrawTogglesTheSpritesPixels : Prop :=
  EncodedBy 0xF000 0xD000 (fun w => .drw (fieldX w) (fieldY w) (fieldN w).toNat) ∧
  ∀ (x y : Reg) (n : Nat) (s : State),
    (Display.wf s.disp → Display.binary s.disp → n = 0 ∨ baseAddr s + n ≤ 0x1000 →
      ∃ t, exec (.drw x y n) s = .next t ∧
        (∀ X Y, X < 64 → Y < 32 → pixel t (Y * 64 + X) =
          if spriteCovers (readReg s x).toNat (readReg s y).toNat
              (fun j => memByte s (baseAddr s + j)) n X Y then
            pixel s (Y * 64 + X) ^^^ 1
          else pixel s (Y * 64 + X)) ∧
        (readReg t VF = 1 ↔ ∃ X Y, X < 64 ∧ Y < 32 ∧
          spriteCovers (readReg s x).toNat (readReg s y).toNat
            (fun j => memByte s (baseAddr s + j)) n X Y ∧ pixel s (Y * 64 + X) = 1) ∧
        (readReg t VF = 0 ∨ readReg t VF = 1) ∧
        (∀ r, r ≠ VF → readReg t r = readReg s r) ∧
        t = { s with v := t.v, disp := t.disp, redraw := true, pc := s.pc + 2 }) ∧
    (0 < n → 0x1000 < baseAddr s + n →
      exec (.drw x y n) s =
        .next { s with status := .faulted (.memOutOfRange (max (baseAddr s) 0x1000)) })

/-! ## Jump, call, return -/

/-- 1nnn sets pc to nnn and changes nothing else (R141). -/
def Obligations.JumpGoesToItsTarget : Prop :=
  EncodedBy 0xF000 0x1000 (fun w => .jp (fieldNNN w)) ∧
  ∀ (nnn : Word) (s : State), exec (.jp nnn) s = .next { s with pc := nnn }

/-- Bnnn sets pc to V0 plus nnn, not masked to 12 bits, and changes nothing else (R143; decision D12). -/
def Obligations.JumpV0AddsV0ToItsTarget : Prop :=
  EncodedBy 0xF000 0xB000 (fun w => .jpV0 (fieldNNN w)) ∧
  ∀ (nnn : Word) (s : State), ∃ t, exec (.jpV0 nnn) s = .next t ∧
    t.pc.toNat = ((readReg s V0).toNat + nnn.toNat) % 65536 ∧ t = { s with pc := t.pc }

/-- 2nnn pushes its own address and jumps, and with a full stack is the fault StackOverflow (R142;
decisions D3, D4, D24). -/
def Obligations.CallPushesItsAddress : Prop :=
  EncodedBy 0xF000 0x2000 (fun w => .call (fieldNNN w)) ∧
  ∀ (nnn : Word) (s : State),
    (∀ h : s.sp.val < 16, ∃ t, exec (.call nnn) s = .next t ∧
      t.stack[s.sp.val]'h = s.pc ∧ t.sp.val = s.sp.val + 1 ∧
      (∀ k : Fin 16, k.val ≠ s.sp.val → t.stack[k.val]'k.isLt = s.stack[k.val]'k.isLt) ∧
      t = { s with stack := t.stack, sp := t.sp, pc := nnn }) ∧
    (s.sp.val = 16 → exec (.call nnn) s = .next { s with status := .faulted .stackOverflow })

/-- 00EE pops the address of a call and goes on after it, leaving the entry in place, and with an empty
stack is the fault StackUnderflow (R140; decisions D3, D5, D8, D24). -/
def Obligations.ReturnPopsTheAddress : Prop :=
  EncodedBy 0xF0FF 0x00EE (fun _ => .ret) ∧
  ∀ s : State,
    (∀ h : 0 < s.sp.val, ∃ t, exec .ret s = .next t ∧
      t.pc = s.stack[s.sp.val - 1]'(by omega) + 2 ∧ t.sp.val = s.sp.val - 1 ∧
      t = { s with sp := t.sp, pc := t.pc }) ∧
    (s.sp.val = 0 → exec .ret s = .next { s with status := .faulted .stackUnderflow })

/-- A return executed with the stack as a call left it, at whatever pc and with whatever registers, goes
to the instruction after the call (R140, R142, R144; decision D24). -/
def Obligations.ReturnGoesAfterTheCall : Prop :=
  ∀ (nnn w : Word) (v : Vector Byte 16) (s t : State), s.sp.val < 16 → exec (.call nnn) s = .next t →
    ∃ u, exec .ret { t with pc := w, v := v } = .next u ∧ u.pc = s.pc + 2 ∧ u.sp = s.sp

/-! ## Skips -/

/-- 3xnn and 4xnn skip the next word if Vx is, or is not, nn, and change nothing else (R151, R152). -/
def Obligations.SkipsComparingWithAnImmediate : Prop :=
  EncodedBy 0xF000 0x3000 (fun w => .seImm (fieldX w) (fieldNN w)) ∧
  EncodedBy 0xF000 0x4000 (fun w => .sneImm (fieldX w) (fieldNN w)) ∧
  ∀ (x : Reg) (nn : Byte) (s : State),
    exec (.seImm x nn) s =
      .next { s with pc := if readReg s x = nn then s.pc + 4 else s.pc + 2 } ∧
    exec (.sneImm x nn) s =
      .next { s with pc := if readReg s x ≠ nn then s.pc + 4 else s.pc + 2 }

/-- 5xy0 skips the next word if Vx equals Vy, whatever its low nibble, and changes nothing else (R153). -/
def Obligations.SkipIfRegistersAreEqual : Prop :=
  EncodedBy 0xF000 0x5000 (fun w => .seReg (fieldX w) (fieldY w)) ∧
  ∀ (x y : Reg) (s : State),
    exec (.seReg x y) s =
      .next { s with pc := if readReg s x = readReg s y then s.pc + 4 else s.pc + 2 }

/-- 9xy0 skips the next word if Vx differs from Vy, whatever its low nibble (decision D8), and changes
nothing else (R154). -/
def Obligations.SkipIfRegistersDiffer : Prop :=
  EncodedBy 0xF000 0x9000 (fun w => .sneReg (fieldX w) (fieldY w)) ∧
  ∀ (x y : Reg) (s : State),
    exec (.sneReg x y) s =
      .next { s with pc := if readReg s x ≠ readReg s y then s.pc + 4 else s.pc + 2 }

/-- Ex9E and ExA1 skip the next word if key Vx is down, or up, and change nothing else; with Vx above 15
they are the fault KeyOutOfRange (R155, R156; decisions D3, D6). -/
def Obligations.SkipsReadingAKey : Prop :=
  EncodedBy 0xF0FF 0xE09E (fun w => .skp (fieldX w)) ∧
  EncodedBy 0xF0FF 0xE0A1 (fun w => .sknp (fieldX w)) ∧
  ∀ (x : Reg) (s : State),
    (∀ h : (readReg s x).toNat < 16,
      exec (.skp x) s =
        .next { s with pc := if s.key[(readReg s x).toNat]'h = true then s.pc + 4 else s.pc + 2 } ∧
      exec (.sknp x) s =
        .next { s with pc := if s.key[(readReg s x).toNat]'h = false then s.pc + 4 else s.pc + 2 }) ∧
    (16 ≤ (readReg s x).toNat →
      exec (.skp x) s = .next { s with status := .faulted (.keyOutOfRange (readReg s x)) } ∧
      exec (.sknp x) s = .next { s with status := .faulted (.keyOutOfRange (readReg s x)) })

/-! ## Register moves and arithmetic -/

/-- 6xnn loads nn into Vx; 7xnn adds nn to Vx modulo 2^8; neither writes a flag or anything else (R161,
R162). -/
def Obligations.ImmediateLoadAndAdd : Prop :=
  EncodedBy 0xF000 0x6000 (fun w => .ldImm (fieldX w) (fieldNN w)) ∧
  EncodedBy 0xF000 0x7000 (fun w => .addImm (fieldX w) (fieldNN w)) ∧
  ∀ (x : Reg) (nn : Byte) (s : State),
    (∃ t, exec (.ldImm x nn) s = .next t ∧ readReg t x = nn ∧
      (∀ r, r ≠ x → readReg t r = readReg s r) ∧ t = { s with v := t.v, pc := s.pc + 2 }) ∧
    ∃ t, exec (.addImm x nn) s = .next t ∧
      (readReg t x).toNat = ((readReg s x).toNat + nn.toNat) % 256 ∧
      (∀ r, r ≠ x → readReg t r = readReg s r) ∧ t = { s with v := t.v, pc := s.pc + 2 }

/-- 8xy0 moves Vy to Vx, and 8xy1, 8xy2, 8xy3 put the bitwise OR, AND, XOR of Vx and Vy into Vx; none
writes a flag or anything else (R163, R164, R165, R166). -/
def Obligations.MoveAndBitwiseOperations : Prop :=
  EncodedBy 0xF00F 0x8000 (fun w => .ldReg (fieldX w) (fieldY w)) ∧
  EncodedBy 0xF00F 0x8001 (fun w => .orReg (fieldX w) (fieldY w)) ∧
  EncodedBy 0xF00F 0x8002 (fun w => .andReg (fieldX w) (fieldY w)) ∧
  EncodedBy 0xF00F 0x8003 (fun w => .xorReg (fieldX w) (fieldY w)) ∧
  ∀ (x y : Reg) (s : State),
    (∃ t, exec (.ldReg x y) s = .next t ∧ readReg t x = readReg s y ∧
      (∀ r, r ≠ x → readReg t r = readReg s r) ∧ t = { s with v := t.v, pc := s.pc + 2 }) ∧
    (∃ t, exec (.orReg x y) s = .next t ∧ readReg t x = readReg s x ||| readReg s y ∧
      (∀ r, r ≠ x → readReg t r = readReg s r) ∧ t = { s with v := t.v, pc := s.pc + 2 }) ∧
    (∃ t, exec (.andReg x y) s = .next t ∧ readReg t x = readReg s x &&& readReg s y ∧
      (∀ r, r ≠ x → readReg t r = readReg s r) ∧ t = { s with v := t.v, pc := s.pc + 2 }) ∧
    ∃ t, exec (.xorReg x y) s = .next t ∧ readReg t x = readReg s x ^^^ readReg s y ∧
      (∀ r, r ≠ x → readReg t r = readReg s r) ∧ t = { s with v := t.v, pc := s.pc + 2 }

/-- 8xy4 adds modulo 2^8 and puts the carry into VF; with x = 0xF the result stays in VF (R160, R167;
decision D10). -/
def Obligations.AddSetsTheCarry : Prop :=
  EncodedBy 0xF00F 0x8004 (fun w => .addReg (fieldX w) (fieldY w)) ∧
  ∀ (x y : Reg) (s : State), ∃ t, exec (.addReg x y) s = .next t ∧
    (readReg t x).toNat = ((readReg s x).toNat + (readReg s y).toNat) % 256 ∧
    (x ≠ VF → readReg t VF = if (readReg s x).toNat + (readReg s y).toNat > 255 then 1 else 0) ∧
    (∀ r, r ≠ x → r ≠ VF → readReg t r = readReg s r) ∧ t = { s with v := t.v, pc := s.pc + 2 }

/-- 8xy5 and 8xy7 subtract modulo 2^8 and put into VF whether the minuend is strictly greater; with
x = 0xF the result stays in VF (R160, R168, R170; decision D10). -/
def Obligations.SubtractionsSetTheStrictComparison : Prop :=
  EncodedBy 0xF00F 0x8005 (fun w => .subReg (fieldX w) (fieldY w)) ∧
  EncodedBy 0xF00F 0x8007 (fun w => .subnReg (fieldX w) (fieldY w)) ∧
  ∀ (x y : Reg) (s : State),
    (∃ t, exec (.subReg x y) s = .next t ∧
      ((readReg t x).toNat : Int) = ((readReg s x).toNat - (readReg s y).toNat : Int) % 256 ∧
      (x ≠ VF → readReg t VF = if (readReg s x).toNat > (readReg s y).toNat then 1 else 0) ∧
      (∀ r, r ≠ x → r ≠ VF → readReg t r = readReg s r) ∧
      t = { s with v := t.v, pc := s.pc + 2 }) ∧
    ∃ t, exec (.subnReg x y) s = .next t ∧
      ((readReg t x).toNat : Int) = ((readReg s y).toNat - (readReg s x).toNat : Int) % 256 ∧
      (x ≠ VF → readReg t VF = if (readReg s y).toNat > (readReg s x).toNat then 1 else 0) ∧
      (∀ r, r ≠ x → r ≠ VF → readReg t r = readReg s r) ∧
      t = { s with v := t.v, pc := s.pc + 2 }

/-- 8xy6 and 8xyE shift Vx, never Vy, by one bit and put the bit shifted out into VF; with x = 0xF the
result stays in VF (R160, R169, R171; decision D10). -/
def Obligations.ShiftsSetTheBitShiftedOut : Prop :=
  EncodedBy 0xF00F 0x8006 (fun w => .shr (fieldX w) (fieldY w)) ∧
  EncodedBy 0xF00F 0x800E (fun w => .shl (fieldX w) (fieldY w)) ∧
  ∀ (x y : Reg) (s : State),
    (∃ t, exec (.shr x y) s = .next t ∧ (readReg t x).toNat = (readReg s x).toNat / 2 ∧
      (x ≠ VF → (readReg t VF).toNat = (readReg s x).toNat % 2) ∧
      (∀ r, r ≠ x → r ≠ VF → readReg t r = readReg s r) ∧
      t = { s with v := t.v, pc := s.pc + 2 }) ∧
    ∃ t, exec (.shl x y) s = .next t ∧ (readReg t x).toNat = 2 * (readReg s x).toNat % 256 ∧
      (x ≠ VF → (readReg t VF).toNat = (readReg s x).toNat / 128) ∧
      (∀ r, r ≠ x → r ≠ VF → readReg t r = readReg s r) ∧
      t = { s with v := t.v, pc := s.pc + 2 }

/-- Cxnn puts a fresh free byte masked with nn into Vx and changes nothing else: no bit outside nn is set,
and the draw is counted so that the next one is another (R172; decision D18; the draw is log 3). -/
def Obligations.RandomIsAMaskedFreeByte : Prop :=
  EncodedBy 0xF000 0xC000 (fun w => .rnd (fieldX w) (fieldNN w)) ∧
  ∀ (x : Reg) (nn : Byte) (s : State), ∃ t, exec (.rnd x nn) s = .next t ∧
    readReg t x = Config.rand8 s.draws &&& nn ∧ readReg t x &&& ~~~nn = 0 ∧
    (∀ r, r ≠ x → readReg t r = readReg s r) ∧
    t = { s with v := t.v, pc := s.pc + 2, draws := s.draws + 1 }

/-! ## Index register and memory -/

/-- Annn sets I to nnn; Fx29 sets I to five times Vx, not masked; neither changes anything else (R180,
R182). -/
def Obligations.IndexLoads : Prop :=
  EncodedBy 0xF000 0xA000 (fun w => .ldI (fieldNNN w)) ∧
  EncodedBy 0xF0FF 0xF029 (fun w => .ldF (fieldX w)) ∧
  (∀ (nnn : Word) (s : State), exec (.ldI nnn) s = .next { s with i := nnn, pc := s.pc + 2 }) ∧
  ∀ (x : Reg) (s : State), ∃ t, exec (.ldF x) s = .next t ∧
    t.i.toNat = (readReg s x).toNat * 5 ∧ t = { s with i := t.i, pc := s.pc + 2 }

/-- Fx1E adds Vx to I modulo 2^16 and puts into VF whether the exact sum exceeds 0xFFF (R181; decision
D11). -/
def Obligations.IndexAddSetsTheOverflow : Prop :=
  EncodedBy 0xF0FF 0xF01E (fun w => .addI (fieldX w)) ∧
  ∀ (x : Reg) (s : State), ∃ t, exec (.addI x) s = .next t ∧
    t.i.toNat = (s.i.toNat + (readReg s x).toNat) % 65536 ∧
    (readReg t VF = if s.i.toNat + (readReg s x).toNat > 0xFFF then 1 else 0) ∧
    (∀ r, r ≠ VF → readReg t r = readReg s r) ∧
    t = { s with v := t.v, i := t.i, pc := s.pc + 2 }

/-- Fx33 stores the hundreds, tens and ones of Vx at I, I+1, I+2, leaves every other byte, I and the
registers, and faults without writing when I+2 is not in memory (R183; decisions D2, D3). -/
def Obligations.DecimalDigitsAreStored : Prop :=
  EncodedBy 0xF0FF 0xF033 (fun w => .ldB (fieldX w)) ∧
  ∀ (x : Reg) (s : State),
    (Memory.wf s.font s.mem → baseAddr s + 2 < 0x1000 → ∃ t, exec (.ldB x) s = .next t ∧
      (memByte t (baseAddr s)).toNat = (readReg s x).toNat / 100 ∧
      (memByte t (baseAddr s + 1)).toNat = (readReg s x).toNat / 10 % 10 ∧
      (memByte t (baseAddr s + 2)).toNat = (readReg s x).toNat % 10 ∧
      (∀ a, a < baseAddr s ∨ baseAddr s + 2 < a → memByte t a = memByte s a) ∧
      t = { s with mem := t.mem, pc := s.pc + 2 }) ∧
    (0x1000 ≤ baseAddr s + 2 →
      exec (.ldB x) s =
        .next { s with status := .faulted (.memOutOfRange (max (baseAddr s) 0x1000)) })

/-- Fx55 stores V0 to Vx at I to I+x, leaves every other byte, advances I by x+1, and faults without
writing when I+x is not in memory (R184; decisions D2, D3). -/
def Obligations.RegistersAreStored : Prop :=
  EncodedBy 0xF0FF 0xF055 (fun w => .storeRegs (fieldX w)) ∧
  ∀ (x : Reg) (s : State),
    (Memory.wf s.font s.mem → baseAddr s + x.val < 0x1000 → ∃ t, exec (.storeRegs x) s = .next t ∧
      (∀ k : Reg, k.val ≤ x.val → memByte t (baseAddr s + k.val) = readReg s k) ∧
      (∀ a, a < baseAddr s ∨ baseAddr s + x.val < a → memByte t a = memByte s a) ∧
      t.i.toNat = (s.i.toNat + x.val + 1) % 65536 ∧
      t = { s with mem := t.mem, i := t.i, pc := s.pc + 2 }) ∧
    (0x1000 ≤ baseAddr s + x.val →
      exec (.storeRegs x) s =
        .next { s with status := .faulted (.memOutOfRange (max (baseAddr s) 0x1000)) })

/-- Fx65 loads V0 to Vx from I to I+x, leaves the other registers and memory, advances I by x+1, and
faults without writing when I+x is not in memory (R185; decisions D2, D3). -/
def Obligations.RegistersAreLoaded : Prop :=
  EncodedBy 0xF0FF 0xF065 (fun w => .loadRegs (fieldX w)) ∧
  ∀ (x : Reg) (s : State),
    (baseAddr s + x.val < 0x1000 → ∃ t, exec (.loadRegs x) s = .next t ∧
      (∀ k : Reg, k.val ≤ x.val → readReg t k = memByte s (baseAddr s + k.val)) ∧
      (∀ k : Reg, x.val < k.val → readReg t k = readReg s k) ∧
      t.i.toNat = (s.i.toNat + x.val + 1) % 65536 ∧
      t = { s with v := t.v, i := t.i, pc := s.pc + 2 }) ∧
    (0x1000 ≤ baseAddr s + x.val →
      exec (.loadRegs x) s =
        .next { s with status := .faulted (.memOutOfRange (max (baseAddr s) 0x1000)) })

/-- Storing V0 to Vx and loading them back from the same address reproduces them, whatever the registers
hold in between (R184, R185, R243). -/
def Obligations.StoreThenLoadReproducesTheRegisters : Prop :=
  ∀ (x : Reg) (v : Vector Byte 16) (s t : State), Memory.wf s.font s.mem → baseAddr s + x.val < 0x1000 →
    exec (.storeRegs x) s = .next t →
    ∃ u, exec (.loadRegs x) { t with v := v, i := s.i } = .next u ∧
      ∀ k : Reg, readReg u k = if k.val ≤ x.val then readReg s k else v[k.val]'k.isLt

/-- A store by Fx55 with any x, or by Fx33, is seen by the very next fetch, wherever the stored bytes lie
over the next instruction: each byte of the word fetched is the stored one where the store covers it,
and as before elsewhere (R62, R241). Where the store itself leaves memory the instruction faults, which
has statements of its own. -/
def Obligations.StoreIsSeenByTheNextFetch : Prop :=
  ∀ (x : Reg) (s : State), Memory.wf s.font s.mem → (s.pc + 2).toNat ≤ 0xFFE →
    (baseAddr s + x.val < 0x1000 → ∃ t, exec (.storeRegs x) s = .next t ∧
      fetch t = .ok
        (byteAfterStore s (x.val + 1) (fun k => readReg s (Fin.ofNat 16 k)) (s.pc + 2).toNat ++
         byteAfterStore s (x.val + 1) (fun k => readReg s (Fin.ofNat 16 k)) ((s.pc + 2).toNat + 1))) ∧
    (baseAddr s + 2 < 0x1000 → ∃ t, exec (.ldB x) s = .next t ∧
      fetch t = .ok
        (byteAfterStore s 3 (digitByte (readReg s x)) (s.pc + 2).toNat ++
         byteAfterStore s 3 (digitByte (readReg s x)) ((s.pc + 2).toNat + 1)))

/-! ## Timers and keys -/

/-- Fx07 copies DT to Vx, Fx15 copies Vx to DT and Fx18 copies Vx to ST, and nothing else changes (R190,
R191, R192). -/
def Obligations.TimerMoves : Prop :=
  EncodedBy 0xF0FF 0xF007 (fun w => .ldVxDt (fieldX w)) ∧
  EncodedBy 0xF0FF 0xF015 (fun w => .ldDtVx (fieldX w)) ∧
  EncodedBy 0xF0FF 0xF018 (fun w => .ldStVx (fieldX w)) ∧
  ∀ (x : Reg) (s : State),
    (∃ t, exec (.ldVxDt x) s = .next t ∧ readReg t x = s.dt ∧
      (∀ r, r ≠ x → readReg t r = readReg s r) ∧ t = { s with v := t.v, pc := s.pc + 2 }) ∧
    exec (.ldDtVx x) s = .next { s with dt := readReg s x, pc := s.pc + 2 } ∧
    exec (.ldStVx x) s = .next { s with st := readReg s x, pc := s.pc + 2 }

/-- Fx0A: with no key down nothing changes; else Vx takes the index of a key that is down, and any of
them may be the one drawn (R194; decisions D17, D29; the draw is log 4). -/
def Obligations.WaitTakesAKeyThatIsDown : Prop :=
  EncodedBy 0xF0FF 0xF00A (fun w => .ldVxK (fieldX w)) ∧
  (∀ (x : Reg) (s : State),
    ((∀ k : Fin 16, s.key[k.val]'k.isLt = false) → exec (.ldVxK x) s = .next s) ∧
    ((∃ k : Fin 16, s.key[k.val]'k.isLt = true) →
      ∃ t, ∃ k : Fin 16, exec (.ldVxK x) s = .next t ∧ s.key[k.val]'k.isLt = true ∧
        (readReg t x).toNat = k.val ∧ (∀ r, r ≠ x → readReg t r = readReg s r) ∧
        t = { s with v := t.v, pc := s.pc + 2, draws := s.draws + 1 })) ∧
  ∀ (down : List (Fin 16)) (k : Fin 16), k ∈ down → ∃ index, pickKey index down = some k

/-! ## The parameter FONT -/

/-- No step changes the parameter FONT: INIT and LOAD put the machine's own FONT, whatever it is, into
memory (R6, R36; the field that holds it is log 5). -/
def Obligations.StepKeepsTheParameterFont : Prop :=
  ∀ s t : State, step s = .next t → t.font = s.font ∧
    ((∃ rest, s.pending = .init :: rest) ∨
      (∃ bytes rest, s.pending = .load bytes :: rest ∧ bytes.length ≤ 0xE00) →
      ∀ k : Fin 80, memByte t k.val = s.font[k.val]'k.isLt)
end

