-- ==== Sys2Proof/Laws/Cells.lean ====
section
/-! SUPPORT. Reading and writing cells: what a write does to every read, that it keeps the canonical form,
that canonical lists with equal reads are equal, and the same for a run of bytes. -/

namespace Sys2Proof.Machine

variable {d : Nat → Byte} {n : Nat} {cs : List Host.Cell}

theorem CellsWf.tail {c : Host.Cell} (h : CellsWf d n (c :: cs)) : CellsWf d n cs :=
  ⟨h.1.of_cons, fun e he => h.2 e (List.mem_cons_of_mem _ he)⟩

/-- An address below every listed one reads as unlisted. -/
theorem cellsRead_below (h : ∀ c ∈ cs, a < c.1) : cellsRead d cs a = d a := by
  cases cs with
  | nil => rfl
  | cons c r => simp [cellsRead, h c List.mem_cons_self]

/-- A write is seen at its address and nowhere else. -/
theorem cellsRead_cellsWrite (h : CellsWf d n cs) (a c : Nat) (x : Byte) :
    cellsRead d (cellsWrite d cs a x) c = if c = a then x else cellsRead d cs c := by
  induction cs with
  | nil => grind [cellsRead, cellsWrite]
  | cons e r ih =>
    obtain ⟨b, w⟩ := e
    have hb : ∀ e ∈ r, b < e.1 := fun e he => (List.pairwise_cons.1 h.1).1 e he
    have below : ∀ c ≤ b, cellsRead d r c = d c := fun c hc =>
      cellsRead_below fun e he => Nat.lt_of_le_of_lt hc (hb e he)
    have ih := ih h.tail
    simp only [cellsWrite]
    split
    · split <;> grind [cellsRead]
    · split
      · split <;> grind [cellsRead]
      · grind [cellsRead]

theorem mem_cellsWrite {e : Host.Cell} {a : Nat} {x : Byte} (he : e ∈ cellsWrite d cs a x) :
    e ∈ cs ∨ (e = (a, x) ∧ x ≠ d a) := by
  induction cs with
  | nil => grind [cellsWrite]
  | cons c r ih => obtain ⟨b, w⟩ := c; grind [cellsWrite]

/-- A write inside the space keeps the canonical form. -/
theorem cellsWrite_wf (h : CellsWf d n cs) {a : Nat} (ha : a < n) (x : Byte) :
    CellsWf d n (cellsWrite d cs a x) := by
  refine ⟨?_, fun e he => ?_⟩
  · have hp := h.1
    clear h
    induction cs with
    | nil => simp only [cellsWrite]; split <;> simp
    | cons c r ih =>
      obtain ⟨b, w⟩ := c
      have hc := List.pairwise_cons.1 hp
      simp only [cellsWrite]
      split
      · split
        · exact hp
        · refine List.pairwise_cons.2 ⟨?_, hp⟩
          intro e he
          rcases List.mem_cons.1 he with rfl | he
          · assumption
          · have := hc.1 e he; simp only at this ⊢; omega
      · split
        · split
          · exact hc.2
          · refine List.pairwise_cons.2 ⟨?_, hc.2⟩
            intro e he
            have := hc.1 e he; simp only at this ⊢; omega
        · refine List.pairwise_cons.2 ⟨fun e he => ?_, ih hc.2⟩
          rcases mem_cellsWrite he with he | ⟨rfl, -⟩
          · exact hc.1 e he
          · simp only; omega
  · rcases mem_cellsWrite he with he | ⟨rfl, hx⟩
    · exact h.2 e he
    · exact ⟨ha, hx⟩

/-- Outside the space every address reads as unlisted. -/
theorem cellsRead_outside (h : CellsWf d n cs) {a : Nat} (ha : n ≤ a) : cellsRead d cs a = d a := by
  induction cs with
  | nil => rfl
  | cons c r ih =>
    obtain ⟨b, w⟩ := c
    have hb := (h.2 (b, w) List.mem_cons_self).1
    have := ih h.tail
    simp only at hb
    grind [cellsRead]

/-- A listed cell is what its address reads as. -/
theorem cellsRead_of_mem (h : CellsWf d n cs) {c : Host.Cell} (hc : c ∈ cs) :
    cellsRead d cs c.1 = c.2 := by
  induction cs with
  | nil => simp at hc
  | cons e r ih =>
    obtain ⟨b, w⟩ := e
    rcases List.mem_cons.1 hc with rfl | hc'
    · simp [cellsRead]
    · have hlt := (List.pairwise_cons.1 h.1).1 c hc'
      have := ih h.tail hc'
      simp only at hlt
      grind [cellsRead]

/-- An address that reads otherwise than unlisted is listed. -/
theorem mem_of_cellsRead_ne {a : Nat} (h : cellsRead d cs a ≠ d a) : (a, cellsRead d cs a) ∈ cs := by
  induction cs with
  | nil => exact absurd rfl h
  | cons e r ih =>
    obtain ⟨b, w⟩ := e
    simp only [cellsRead] at h ⊢
    grind

/-- Canonical lists that read alike are the same list. -/
theorem cells_ext {cs' : List Host.Cell} (h : CellsWf d n cs) (h' : CellsWf d n cs')
    (e : ∀ a, cellsRead d cs a = cellsRead d cs' a) : cs = cs' := by
  have sub : ∀ {l l' : List Host.Cell}, CellsWf d n l → (∀ a, cellsRead d l a = cellsRead d l' a) →
      ∀ c ∈ l, c ∈ l' := by
    intro l l' hl hr c hc
    have hv := cellsRead_of_mem hl hc
    have hne : cellsRead d l' c.1 ≠ d c.1 := by rw [← hr, hv]; exact (hl.2 c hc).2
    have := mem_of_cellsRead_ne hne
    rwa [← hr, hv] at this
  have perm : cs.Perm cs' := by
    refine (List.perm_ext_iff_of_nodup ?_ ?_).2 fun c => ⟨sub h e c, sub h' (fun a => (e a).symm) c⟩
    · exact h.1.imp fun hlt heq => by rw [heq] at hlt; exact Nat.lt_irrefl _ hlt
    · exact h'.1.imp fun hlt heq => by rw [heq] at hlt; exact Nat.lt_irrefl _ hlt
  exact perm.eq_of_pairwise (fun a b _ _ hab hba => absurd hab (Nat.lt_asymm hba)) h.1 h'.1

/-- The empty list is canonical. -/
theorem cellsWf_nil : CellsWf d n [] := ⟨List.Pairwise.nil, fun _ h => absurd h (by simp)⟩

theorem reset_memory_wf : Memory.wf State.reset.font State.reset.mem := cellsWf_nil

theorem reset_display_wf : Display.wf State.reset.disp := cellsWf_nil

/-! ## Runs of bytes -/

variable {font : Font}

theorem placeBytes_wf {m : List Host.Cell} {a : Nat} {bs : List Byte} (h : Memory.wf font m)
    (hb : a + bs.length ≤ 0x1000) : Memory.wf font (placeBytes font m a bs) := by
  induction bs generalizing m a with
  | nil => exact h
  | cons b r ih =>
    simp only [List.length_cons] at hb
    exact ih (cellsWrite_wf h (by simp only [Config.memSize]; omega) b) (by omega)

/-- Placing bytes inside the address space changes those bytes and no others. -/
theorem cellsRead_placeBytes {m : List Host.Cell} {a : Nat} {bs : List Byte} (h : Memory.wf font m)
    (hb : a + bs.length ≤ 0x1000) (c : Nat) :
    cellsRead (resetByte font) (placeBytes font m a bs) c =
      if a ≤ c ∧ c < a + bs.length then bs.getD (c - a) 0 else cellsRead (resetByte font) m c := by
  induction bs generalizing m a with
  | nil => simp only [placeBytes, List.length_nil]; rw [if_neg]; omega
  | cons b r ih =>
    simp only [List.length_cons] at hb
    have hw := cellsWrite_wf h (a := a) (by simp only [Config.memSize]; omega) b
    simp only [placeBytes]
    rw [ih hw (by omega), cellsRead_cellsWrite h]
    simp only [List.length_cons]
    by_cases hc : c = a
    · subst hc
      rw [if_neg (by omega), if_pos rfl, if_pos (by omega)]
      simp
    · by_cases hr : a + 1 ≤ c ∧ c < a + 1 + r.length
      · rw [if_pos hr, if_pos (by omega)]
        obtain ⟨k, rfl⟩ : ∃ k, c = a + 1 + k := ⟨c - (a + 1), by omega⟩
        rw [show a + 1 + k - (a + 1) = k by omega, show a + 1 + k - a = k + 1 by omega]
        simp
      · rw [if_neg hr, if_neg hc, if_neg (by omega)]

end Sys2Proof.Machine
end

