-- ==== Sys2Proof/Laws/Decode.lean ====
section
/-! SUPPORT. The fields of an encoded word, and the masks of R74 as equations between fields. -/

namespace Sys2Proof

/-! ## Fields of an encoded word (R71, R75) -/

@[simp] theorem fieldT_encXNN (t : BitVec 4) (x : Reg) (nn : Byte) : fieldT (encXNN t x nn) = t := by
  apply BitVec.eq_of_getLsbD_eq; intro i hi
  simp only [fieldT, encXNN, BitVec.getLsbD_extractLsb', BitVec.getLsbD_append]
  rcases i with _ | _ | _ | _ | i <;> simp

@[simp] theorem fieldX_encXNN (t : BitVec 4) (x : Reg) (nn : Byte) : fieldX (encXNN t x nn) = x := by
  have : (encXNN t x nn).extractLsb' 8 4 = BitVec.ofFin (w := 4) x := by
    apply BitVec.eq_of_getLsbD_eq; intro i hi
    simp only [encXNN, BitVec.getLsbD_extractLsb', BitVec.getLsbD_append]
    rcases i with _ | _ | _ | _ | i <;> simp
  simp only [fieldX, this]

@[simp] theorem fieldNN_encXNN (t : BitVec 4) (x : Reg) (nn : Byte) :
    fieldNN (encXNN t x nn) = nn := by
  apply BitVec.eq_of_getLsbD_eq; intro i hi
  simp only [fieldNN, encXNN, BitVec.getLsbD_extractLsb', BitVec.getLsbD_append]
  simp [hi, show i < 12 by omega]

@[simp] theorem fieldT_encXYN (t : BitVec 4) (x y : Reg) (n : BitVec 4) :
    fieldT (encXYN t x y n) = t := by
  apply BitVec.eq_of_getLsbD_eq; intro i hi
  simp only [fieldT, encXYN, BitVec.getLsbD_extractLsb', BitVec.getLsbD_append]
  rcases i with _ | _ | _ | _ | i <;> simp

@[simp] theorem fieldX_encXYN (t : BitVec 4) (x y : Reg) (n : BitVec 4) :
    fieldX (encXYN t x y n) = x := by
  have : (encXYN t x y n).extractLsb' 8 4 = BitVec.ofFin (w := 4) x := by
    apply BitVec.eq_of_getLsbD_eq; intro i hi
    simp only [encXYN, BitVec.getLsbD_extractLsb', BitVec.getLsbD_append]
    rcases i with _ | _ | _ | _ | i <;> simp
  simp only [fieldX, this]

@[simp] theorem fieldY_encXYN (t : BitVec 4) (x y : Reg) (n : BitVec 4) :
    fieldY (encXYN t x y n) = y := by
  have : (encXYN t x y n).extractLsb' 4 4 = BitVec.ofFin (w := 4) y := by
    apply BitVec.eq_of_getLsbD_eq; intro i hi
    simp only [encXYN, BitVec.getLsbD_extractLsb', BitVec.getLsbD_append]
    rcases i with _ | _ | _ | _ | i <;> simp
  simp only [fieldY, this]

@[simp] theorem fieldN_encXYN (t : BitVec 4) (x y : Reg) (n : BitVec 4) :
    fieldN (encXYN t x y n) = n := by
  apply BitVec.eq_of_getLsbD_eq; intro i hi
  simp only [fieldN, encXYN, BitVec.getLsbD_extractLsb', BitVec.getLsbD_append]
  simp [hi, show i < 8 by omega, show i < 12 by omega]

@[simp] theorem fieldT_encNNN (t : BitVec 4) (nnn : Word) : fieldT (encNNN t nnn) = t := by
  apply BitVec.eq_of_getLsbD_eq; intro i hi
  simp only [fieldT, encNNN, BitVec.getLsbD_extractLsb', BitVec.getLsbD_append]
  rcases i with _ | _ | _ | _ | i <;> simp

/-- An address that fits its field is read back (R72). -/
theorem fieldNNN_encNNN (t : BitVec 4) {nnn : Word} (h : fitsNNN nnn = true) :
    fieldNNN (encNNN t nnn) = nnn := by
  have hlt : nnn.toNat < 0x1000 := by simpa [fitsNNN] using h
  have : (encNNN t nnn).extractLsb' 0 12 = nnn.extractLsb' 0 12 := by
    apply BitVec.eq_of_getLsbD_eq; intro i hi
    simp only [encNNN, BitVec.getLsbD_extractLsb', BitVec.getLsbD_append]
    simp [hi]
  simp only [fieldNNN, this]
  apply BitVec.eq_of_toNat_eq
  simp [BitVec.extractLsb'_toNat]
  omega

/-- An address field is below 0x1000 (R72). -/
theorem fitsNNN_fieldNNN (op : Word) : fitsNNN (fieldNNN op) = true := by
  simp [fitsNNN, fieldNNN, BitVec.extractLsb'_toNat]
  omega

/-- The sprite height is below 16 (R72). -/
theorem fitsN_fieldN (op : Word) : fitsN (fieldN op).toNat = true := by
  simpa [fitsN] using (fieldN op).isLt

/-! ## Masks of R74 as fields -/

/-- Mask F000 selects the top nibble. -/
theorem mask_top (op : Word) (t : BitVec 4) : op &&& 0xF000#16 = t ++ 0#12 ↔ fieldT op = t := by
  constructor
  · intro h
    apply BitVec.eq_of_getLsbD_eq; intro i hi
    have := congrArg (fun w : BitVec 16 => w.getLsbD (12 + i)) h
    simp only [BitVec.getLsbD_and, BitVec.getLsbD_append] at this
    rcases i with _ | _ | _ | _ | i <;>
      first | omega | simpa [fieldT] using this
  · rintro rfl
    apply BitVec.eq_of_getLsbD_eq; intro i hi
    simp only [BitVec.getLsbD_and, BitVec.getLsbD_append]
    rcases i with _ | _ | _ | _ | _ | _ | _ | _ | _ | _ | _ | _ | _ | _ | _ | _ | i <;>
      first | omega | simp [fieldT]

/-- Mask F0FF selects the top nibble and the low byte. -/
theorem mask_top_byte (op : Word) (t : BitVec 4) (nn : Byte) :
    op &&& 0xF0FF#16 = t ++ (0#4 ++ nn) ↔ fieldT op = t ∧ fieldNN op = nn := by
  constructor
  · intro h
    constructor
    · apply BitVec.eq_of_getLsbD_eq; intro i hi
      have := congrArg (fun w : BitVec 16 => w.getLsbD (12 + i)) h
      simp only [BitVec.getLsbD_and, BitVec.getLsbD_append] at this
      rcases i with _ | _ | _ | _ | i <;>
        first | omega | simpa [fieldT] using this
    · apply BitVec.eq_of_getLsbD_eq; intro i hi
      have := congrArg (fun w : BitVec 16 => w.getLsbD i) h
      simp only [BitVec.getLsbD_and, BitVec.getLsbD_append] at this
      rcases i with _ | _ | _ | _ | _ | _ | _ | _ | i <;>
        first | omega | simpa [fieldNN] using this
  · rintro ⟨rfl, rfl⟩
    apply BitVec.eq_of_getLsbD_eq; intro i hi
    simp only [BitVec.getLsbD_and, BitVec.getLsbD_append]
    rcases i with _ | _ | _ | _ | _ | _ | _ | _ | _ | _ | _ | _ | _ | _ | _ | _ | i <;>
      first | omega | simp [fieldT, fieldNN]

/-- Mask F00F selects the top and the low nibble. -/
theorem mask_top_low (op : Word) (t n : BitVec 4) :
    op &&& 0xF00F#16 = t ++ (0#8 ++ n) ↔ fieldT op = t ∧ fieldN op = n := by
  constructor
  · intro h
    constructor
    · apply BitVec.eq_of_getLsbD_eq; intro i hi
      have := congrArg (fun w : BitVec 16 => w.getLsbD (12 + i)) h
      simp only [BitVec.getLsbD_and, BitVec.getLsbD_append] at this
      rcases i with _ | _ | _ | _ | i <;>
        first | omega | simpa [fieldT] using this
    · apply BitVec.eq_of_getLsbD_eq; intro i hi
      have := congrArg (fun w : BitVec 16 => w.getLsbD i) h
      simp only [BitVec.getLsbD_and, BitVec.getLsbD_append] at this
      rcases i with _ | _ | _ | _ | i <;>
        first | omega | simpa [fieldN] using this
  · rintro ⟨rfl, rfl⟩
    apply BitVec.eq_of_getLsbD_eq; intro i hi
    simp only [BitVec.getLsbD_and, BitVec.getLsbD_append]
    rcases i with _ | _ | _ | _ | _ | _ | _ | _ | _ | _ | _ | _ | _ | _ | _ | _ | i <;>
      first | omega | simp [fieldT, fieldN]

/-- The two bytes of a word, high byte first, make it again (R53). -/
theorem wordOf_bytes (op : Word) : wordOf (op.extractLsb' 8 8) (op.extractLsb' 0 8) = op := by
  apply BitVec.eq_of_getLsbD_eq; intro i hi
  simp only [wordOf, BitVec.getLsbD_append, BitVec.getLsbD_extractLsb']
  by_cases h : i < 8
  · simp [h]
  · simp [h, show i - 8 < 8 by omega, show 8 + (i - 8) = i by omega]

/-! ## What decoding selects by (R73, R74) -/

/-- The fields by which an instruction's row is selected: its mask and pattern read as fields (R74). -/
def selectedBy (op : Word) : Instr → Prop
  | .cls => fieldT op = 0x0#4 ∧ fieldNN op = 0xE0#8
  | .ret => fieldT op = 0x0#4 ∧ fieldNN op = 0xEE#8
  | .jp _ => fieldT op = 0x1#4
  | .call _ => fieldT op = 0x2#4
  | .seImm _ _ => fieldT op = 0x3#4
  | .sneImm _ _ => fieldT op = 0x4#4
  | .seReg _ _ => fieldT op = 0x5#4
  | .sneReg _ _ => fieldT op = 0x9#4
  | .ldImm _ _ => fieldT op = 0x6#4
  | .addImm _ _ => fieldT op = 0x7#4
  | .ldReg _ _ => fieldT op = 0x8#4 ∧ fieldN op = 0x0#4
  | .orReg _ _ => fieldT op = 0x8#4 ∧ fieldN op = 0x1#4
  | .andReg _ _ => fieldT op = 0x8#4 ∧ fieldN op = 0x2#4
  | .xorReg _ _ => fieldT op = 0x8#4 ∧ fieldN op = 0x3#4
  | .addReg _ _ => fieldT op = 0x8#4 ∧ fieldN op = 0x4#4
  | .subReg _ _ => fieldT op = 0x8#4 ∧ fieldN op = 0x5#4
  | .shr _ _ => fieldT op = 0x8#4 ∧ fieldN op = 0x6#4
  | .subnReg _ _ => fieldT op = 0x8#4 ∧ fieldN op = 0x7#4
  | .shl _ _ => fieldT op = 0x8#4 ∧ fieldN op = 0xE#4
  | .ldI _ => fieldT op = 0xa#4
  | .jpV0 _ => fieldT op = 0xb#4
  | .rnd _ _ => fieldT op = 0xc#4
  | .drw _ _ _ => fieldT op = 0xd#4
  | .skp _ => fieldT op = 0xe#4 ∧ fieldNN op = 0x9E#8
  | .sknp _ => fieldT op = 0xe#4 ∧ fieldNN op = 0xA1#8
  | .ldVxDt _ => fieldT op = 0xf#4 ∧ fieldNN op = 0x07#8
  | .ldDtVx _ => fieldT op = 0xf#4 ∧ fieldNN op = 0x15#8
  | .ldStVx _ => fieldT op = 0xf#4 ∧ fieldNN op = 0x18#8
  | .ldVxK _ => fieldT op = 0xf#4 ∧ fieldNN op = 0x0A#8
  | .addI _ => fieldT op = 0xf#4 ∧ fieldNN op = 0x1E#8
  | .ldF _ => fieldT op = 0xf#4 ∧ fieldNN op = 0x29#8
  | .ldB _ => fieldT op = 0xf#4 ∧ fieldNN op = 0x33#8
  | .storeRegs _ => fieldT op = 0xf#4 ∧ fieldNN op = 0x55#8
  | .loadRegs _ => fieldT op = 0xf#4 ∧ fieldNN op = 0x65#8

/-- A top nibble is one of sixteen. -/
theorem mem_nibbles (t : BitVec 4) : t ∈ [0x0#4, 0x1#4, 0x2#4, 0x3#4, 0x4#4, 0x5#4, 0x6#4, 0x7#4,
    0x8#4, 0x9#4, 0xA#4, 0xB#4, 0xC#4, 0xD#4, 0xE#4, 0xF#4] := by revert t; decide

/-- Once the top nibble is known, so is the arm of `decode`. -/
theorem decode_of_fieldT {op : Word} {t : BitVec 4} (h : fieldT op = t) : decode op =
    match t.toNat with
    | 0x0 => decodeFamily0 op
    | 0x1 => .ok (.jp (fieldNNN op))
    | 0x2 => .ok (.call (fieldNNN op))
    | 0x3 => .ok (.seImm (fieldX op) (fieldNN op))
    | 0x4 => .ok (.sneImm (fieldX op) (fieldNN op))
    | 0x5 => .ok (.seReg (fieldX op) (fieldY op))
    | 0x6 => .ok (.ldImm (fieldX op) (fieldNN op))
    | 0x7 => .ok (.addImm (fieldX op) (fieldNN op))
    | 0x8 => decodeFamily8 op
    | 0x9 => .ok (.sneReg (fieldX op) (fieldY op))
    | 0xA => .ok (.ldI (fieldNNN op))
    | 0xB => .ok (.jpV0 (fieldNNN op))
    | 0xC => .ok (.rnd (fieldX op) (fieldNN op))
    | 0xD => .ok (.drw (fieldX op) (fieldY op) (fieldN op).toNat)
    | 0xE => decodeFamilyE op
    | _ => decodeFamilyF op := by subst h; rfl

/-- A word decodes to an instruction only through the fields that select it. -/
theorem selectedBy_of_decode {op : Word} {i : Instr} (h : decode op = .ok i) : selectedBy op i := by
  have hm := mem_nibbles (fieldT op)
  generalize ht : fieldT op = t at hm
  rw [decode_of_fieldT ht] at h
  simp only [List.mem_cons, List.not_mem_nil, or_false] at hm
  rcases hm with rfl | rfl | rfl | rfl | rfl | rfl | rfl | rfl | rfl | rfl | rfl | rfl | rfl | rfl |
      rfl | rfl <;>
    simp only [BitVec.toNat_ofNat, Nat.reducePow, Nat.reduceMod, decodeFamily0, decodeFamily8,
      decodeFamilyE, decodeFamilyF] at h <;>
    (repeat' split at h) <;> cases h <;> simp_all only [selectedBy, and_self]

end Sys2Proof
end

