-- ==== Sys2Proof/Laws/State.lean ====
section
/-! SUPPORT. One lemma per field and per update of State, true by rfl, so that no proof unfolds a record
update. -/

namespace Sys2Proof.Machine

/-! ## writeReg -/

@[simp] theorem writeReg_v (s : State) (x : Reg) (b : Byte) : (writeReg s x b).v = s.v.set x.val b x.isLt := rfl
@[simp] theorem writeReg_i (s : State) (x : Reg) (b : Byte) : (writeReg s x b).i = s.i := rfl
@[simp] theorem writeReg_pc (s : State) (x : Reg) (b : Byte) : (writeReg s x b).pc = s.pc := rfl
@[simp] theorem writeReg_stack (s : State) (x : Reg) (b : Byte) : (writeReg s x b).stack = s.stack := rfl
@[simp] theorem writeReg_sp (s : State) (x : Reg) (b : Byte) : (writeReg s x b).sp = s.sp := rfl
@[simp] theorem writeReg_dt (s : State) (x : Reg) (b : Byte) : (writeReg s x b).dt = s.dt := rfl
@[simp] theorem writeReg_st (s : State) (x : Reg) (b : Byte) : (writeReg s x b).st = s.st := rfl
@[simp] theorem writeReg_disp (s : State) (x : Reg) (b : Byte) : (writeReg s x b).disp = s.disp := rfl
@[simp] theorem writeReg_key (s : State) (x : Reg) (b : Byte) : (writeReg s x b).key = s.key := rfl
@[simp] theorem writeReg_redraw (s : State) (x : Reg) (b : Byte) : (writeReg s x b).redraw = s.redraw := rfl
@[simp] theorem writeReg_mem (s : State) (x : Reg) (b : Byte) : (writeReg s x b).mem = s.mem := rfl
@[simp] theorem writeReg_status (s : State) (x : Reg) (b : Byte) : (writeReg s x b).status = s.status := rfl
@[simp] theorem writeReg_diag (s : State) (x : Reg) (b : Byte) : (writeReg s x b).diag = s.diag := rfl
@[simp] theorem writeReg_font (s : State) (x : Reg) (b : Byte) : (writeReg s x b).font = s.font := rfl
@[simp] theorem writeReg_draws (s : State) (x : Reg) (b : Byte) : (writeReg s x b).draws = s.draws := rfl
@[simp] theorem writeReg_pending (s : State) (x : Reg) (b : Byte) : (writeReg s x b).pending = s.pending := rfl

/-! ## setI -/

@[simp] theorem setI_v (s : State) (w : Word) : (setI s w).v = s.v := rfl
@[simp] theorem setI_i (s : State) (w : Word) : (setI s w).i = w := rfl
@[simp] theorem setI_pc (s : State) (w : Word) : (setI s w).pc = s.pc := rfl
@[simp] theorem setI_stack (s : State) (w : Word) : (setI s w).stack = s.stack := rfl
@[simp] theorem setI_sp (s : State) (w : Word) : (setI s w).sp = s.sp := rfl
@[simp] theorem setI_dt (s : State) (w : Word) : (setI s w).dt = s.dt := rfl
@[simp] theorem setI_st (s : State) (w : Word) : (setI s w).st = s.st := rfl
@[simp] theorem setI_disp (s : State) (w : Word) : (setI s w).disp = s.disp := rfl
@[simp] theorem setI_key (s : State) (w : Word) : (setI s w).key = s.key := rfl
@[simp] theorem setI_redraw (s : State) (w : Word) : (setI s w).redraw = s.redraw := rfl
@[simp] theorem setI_mem (s : State) (w : Word) : (setI s w).mem = s.mem := rfl
@[simp] theorem setI_status (s : State) (w : Word) : (setI s w).status = s.status := rfl
@[simp] theorem setI_diag (s : State) (w : Word) : (setI s w).diag = s.diag := rfl
@[simp] theorem setI_font (s : State) (w : Word) : (setI s w).font = s.font := rfl
@[simp] theorem setI_draws (s : State) (w : Word) : (setI s w).draws = s.draws := rfl
@[simp] theorem setI_pending (s : State) (w : Word) : (setI s w).pending = s.pending := rfl

/-! ## setPc -/

@[simp] theorem setPc_v (s : State) (w : Word) : (setPc s w).v = s.v := rfl
@[simp] theorem setPc_i (s : State) (w : Word) : (setPc s w).i = s.i := rfl
@[simp] theorem setPc_pc (s : State) (w : Word) : (setPc s w).pc = w := rfl
@[simp] theorem setPc_stack (s : State) (w : Word) : (setPc s w).stack = s.stack := rfl
@[simp] theorem setPc_sp (s : State) (w : Word) : (setPc s w).sp = s.sp := rfl
@[simp] theorem setPc_dt (s : State) (w : Word) : (setPc s w).dt = s.dt := rfl
@[simp] theorem setPc_st (s : State) (w : Word) : (setPc s w).st = s.st := rfl
@[simp] theorem setPc_disp (s : State) (w : Word) : (setPc s w).disp = s.disp := rfl
@[simp] theorem setPc_key (s : State) (w : Word) : (setPc s w).key = s.key := rfl
@[simp] theorem setPc_redraw (s : State) (w : Word) : (setPc s w).redraw = s.redraw := rfl
@[simp] theorem setPc_mem (s : State) (w : Word) : (setPc s w).mem = s.mem := rfl
@[simp] theorem setPc_status (s : State) (w : Word) : (setPc s w).status = s.status := rfl
@[simp] theorem setPc_diag (s : State) (w : Word) : (setPc s w).diag = s.diag := rfl
@[simp] theorem setPc_font (s : State) (w : Word) : (setPc s w).font = s.font := rfl
@[simp] theorem setPc_draws (s : State) (w : Word) : (setPc s w).draws = s.draws := rfl
@[simp] theorem setPc_pending (s : State) (w : Word) : (setPc s w).pending = s.pending := rfl

/-! ## advance -/

@[simp] theorem advance_v (s : State) : (advance s).v = s.v := rfl
@[simp] theorem advance_i (s : State) : (advance s).i = s.i := rfl
@[simp] theorem advance_pc (s : State) : (advance s).pc = s.pc + 2 := rfl
@[simp] theorem advance_stack (s : State) : (advance s).stack = s.stack := rfl
@[simp] theorem advance_sp (s : State) : (advance s).sp = s.sp := rfl
@[simp] theorem advance_dt (s : State) : (advance s).dt = s.dt := rfl
@[simp] theorem advance_st (s : State) : (advance s).st = s.st := rfl
@[simp] theorem advance_disp (s : State) : (advance s).disp = s.disp := rfl
@[simp] theorem advance_key (s : State) : (advance s).key = s.key := rfl
@[simp] theorem advance_redraw (s : State) : (advance s).redraw = s.redraw := rfl
@[simp] theorem advance_mem (s : State) : (advance s).mem = s.mem := rfl
@[simp] theorem advance_status (s : State) : (advance s).status = s.status := rfl
@[simp] theorem advance_diag (s : State) : (advance s).diag = s.diag := rfl
@[simp] theorem advance_font (s : State) : (advance s).font = s.font := rfl
@[simp] theorem advance_draws (s : State) : (advance s).draws = s.draws := rfl
@[simp] theorem advance_pending (s : State) : (advance s).pending = s.pending := rfl

/-! ## setDt -/

@[simp] theorem setDt_v (s : State) (b : Byte) : (setDt s b).v = s.v := rfl
@[simp] theorem setDt_i (s : State) (b : Byte) : (setDt s b).i = s.i := rfl
@[simp] theorem setDt_pc (s : State) (b : Byte) : (setDt s b).pc = s.pc := rfl
@[simp] theorem setDt_stack (s : State) (b : Byte) : (setDt s b).stack = s.stack := rfl
@[simp] theorem setDt_sp (s : State) (b : Byte) : (setDt s b).sp = s.sp := rfl
@[simp] theorem setDt_dt (s : State) (b : Byte) : (setDt s b).dt = b := rfl
@[simp] theorem setDt_st (s : State) (b : Byte) : (setDt s b).st = s.st := rfl
@[simp] theorem setDt_disp (s : State) (b : Byte) : (setDt s b).disp = s.disp := rfl
@[simp] theorem setDt_key (s : State) (b : Byte) : (setDt s b).key = s.key := rfl
@[simp] theorem setDt_redraw (s : State) (b : Byte) : (setDt s b).redraw = s.redraw := rfl
@[simp] theorem setDt_mem (s : State) (b : Byte) : (setDt s b).mem = s.mem := rfl
@[simp] theorem setDt_status (s : State) (b : Byte) : (setDt s b).status = s.status := rfl
@[simp] theorem setDt_diag (s : State) (b : Byte) : (setDt s b).diag = s.diag := rfl
@[simp] theorem setDt_font (s : State) (b : Byte) : (setDt s b).font = s.font := rfl
@[simp] theorem setDt_draws (s : State) (b : Byte) : (setDt s b).draws = s.draws := rfl
@[simp] theorem setDt_pending (s : State) (b : Byte) : (setDt s b).pending = s.pending := rfl

/-! ## setSt -/

@[simp] theorem setSt_v (s : State) (b : Byte) : (setSt s b).v = s.v := rfl
@[simp] theorem setSt_i (s : State) (b : Byte) : (setSt s b).i = s.i := rfl
@[simp] theorem setSt_pc (s : State) (b : Byte) : (setSt s b).pc = s.pc := rfl
@[simp] theorem setSt_stack (s : State) (b : Byte) : (setSt s b).stack = s.stack := rfl
@[simp] theorem setSt_sp (s : State) (b : Byte) : (setSt s b).sp = s.sp := rfl
@[simp] theorem setSt_dt (s : State) (b : Byte) : (setSt s b).dt = s.dt := rfl
@[simp] theorem setSt_st (s : State) (b : Byte) : (setSt s b).st = b := rfl
@[simp] theorem setSt_disp (s : State) (b : Byte) : (setSt s b).disp = s.disp := rfl
@[simp] theorem setSt_key (s : State) (b : Byte) : (setSt s b).key = s.key := rfl
@[simp] theorem setSt_redraw (s : State) (b : Byte) : (setSt s b).redraw = s.redraw := rfl
@[simp] theorem setSt_mem (s : State) (b : Byte) : (setSt s b).mem = s.mem := rfl
@[simp] theorem setSt_status (s : State) (b : Byte) : (setSt s b).status = s.status := rfl
@[simp] theorem setSt_diag (s : State) (b : Byte) : (setSt s b).diag = s.diag := rfl
@[simp] theorem setSt_font (s : State) (b : Byte) : (setSt s b).font = s.font := rfl
@[simp] theorem setSt_draws (s : State) (b : Byte) : (setSt s b).draws = s.draws := rfl
@[simp] theorem setSt_pending (s : State) (b : Byte) : (setSt s b).pending = s.pending := rfl

/-! ## setMem -/

@[simp] theorem setMem_v (s : State) (m : List Host.Cell) : (setMem s m).v = s.v := rfl
@[simp] theorem setMem_i (s : State) (m : List Host.Cell) : (setMem s m).i = s.i := rfl
@[simp] theorem setMem_pc (s : State) (m : List Host.Cell) : (setMem s m).pc = s.pc := rfl
@[simp] theorem setMem_stack (s : State) (m : List Host.Cell) : (setMem s m).stack = s.stack := rfl
@[simp] theorem setMem_sp (s : State) (m : List Host.Cell) : (setMem s m).sp = s.sp := rfl
@[simp] theorem setMem_dt (s : State) (m : List Host.Cell) : (setMem s m).dt = s.dt := rfl
@[simp] theorem setMem_st (s : State) (m : List Host.Cell) : (setMem s m).st = s.st := rfl
@[simp] theorem setMem_disp (s : State) (m : List Host.Cell) : (setMem s m).disp = s.disp := rfl
@[simp] theorem setMem_key (s : State) (m : List Host.Cell) : (setMem s m).key = s.key := rfl
@[simp] theorem setMem_redraw (s : State) (m : List Host.Cell) : (setMem s m).redraw = s.redraw := rfl
@[simp] theorem setMem_mem (s : State) (m : List Host.Cell) : (setMem s m).mem = m := rfl
@[simp] theorem setMem_status (s : State) (m : List Host.Cell) : (setMem s m).status = s.status := rfl
@[simp] theorem setMem_diag (s : State) (m : List Host.Cell) : (setMem s m).diag = s.diag := rfl
@[simp] theorem setMem_font (s : State) (m : List Host.Cell) : (setMem s m).font = s.font := rfl
@[simp] theorem setMem_draws (s : State) (m : List Host.Cell) : (setMem s m).draws = s.draws := rfl
@[simp] theorem setMem_pending (s : State) (m : List Host.Cell) : (setMem s m).pending = s.pending := rfl

/-! ## setDisp -/

@[simp] theorem setDisp_v (s : State) (d : List Host.Cell) : (setDisp s d).v = s.v := rfl
@[simp] theorem setDisp_i (s : State) (d : List Host.Cell) : (setDisp s d).i = s.i := rfl
@[simp] theorem setDisp_pc (s : State) (d : List Host.Cell) : (setDisp s d).pc = s.pc := rfl
@[simp] theorem setDisp_stack (s : State) (d : List Host.Cell) : (setDisp s d).stack = s.stack := rfl
@[simp] theorem setDisp_sp (s : State) (d : List Host.Cell) : (setDisp s d).sp = s.sp := rfl
@[simp] theorem setDisp_dt (s : State) (d : List Host.Cell) : (setDisp s d).dt = s.dt := rfl
@[simp] theorem setDisp_st (s : State) (d : List Host.Cell) : (setDisp s d).st = s.st := rfl
@[simp] theorem setDisp_disp (s : State) (d : List Host.Cell) : (setDisp s d).disp = d := rfl
@[simp] theorem setDisp_key (s : State) (d : List Host.Cell) : (setDisp s d).key = s.key := rfl
@[simp] theorem setDisp_redraw (s : State) (d : List Host.Cell) : (setDisp s d).redraw = true := rfl
@[simp] theorem setDisp_mem (s : State) (d : List Host.Cell) : (setDisp s d).mem = s.mem := rfl
@[simp] theorem setDisp_status (s : State) (d : List Host.Cell) : (setDisp s d).status = s.status := rfl
@[simp] theorem setDisp_diag (s : State) (d : List Host.Cell) : (setDisp s d).diag = s.diag := rfl
@[simp] theorem setDisp_font (s : State) (d : List Host.Cell) : (setDisp s d).font = s.font := rfl
@[simp] theorem setDisp_draws (s : State) (d : List Host.Cell) : (setDisp s d).draws = s.draws := rfl
@[simp] theorem setDisp_pending (s : State) (d : List Host.Cell) : (setDisp s d).pending = s.pending := rfl

/-! ## writeFlagThenResult -/

@[simp] theorem writeFlagThenResult_v (s : State) (x : Reg) (flag result : Byte) : (writeFlagThenResult s x flag result).v = (s.v.set 15 flag).set x.val result x.isLt := rfl
@[simp] theorem writeFlagThenResult_i (s : State) (x : Reg) (flag result : Byte) : (writeFlagThenResult s x flag result).i = s.i := rfl
@[simp] theorem writeFlagThenResult_pc (s : State) (x : Reg) (flag result : Byte) : (writeFlagThenResult s x flag result).pc = s.pc + 2 := rfl
@[simp] theorem writeFlagThenResult_stack (s : State) (x : Reg) (flag result : Byte) : (writeFlagThenResult s x flag result).stack = s.stack := rfl
@[simp] theorem writeFlagThenResult_sp (s : State) (x : Reg) (flag result : Byte) : (writeFlagThenResult s x flag result).sp = s.sp := rfl
@[simp] theorem writeFlagThenResult_dt (s : State) (x : Reg) (flag result : Byte) : (writeFlagThenResult s x flag result).dt = s.dt := rfl
@[simp] theorem writeFlagThenResult_st (s : State) (x : Reg) (flag result : Byte) : (writeFlagThenResult s x flag result).st = s.st := rfl
@[simp] theorem writeFlagThenResult_disp (s : State) (x : Reg) (flag result : Byte) : (writeFlagThenResult s x flag result).disp = s.disp := rfl
@[simp] theorem writeFlagThenResult_key (s : State) (x : Reg) (flag result : Byte) : (writeFlagThenResult s x flag result).key = s.key := rfl
@[simp] theorem writeFlagThenResult_redraw (s : State) (x : Reg) (flag result : Byte) : (writeFlagThenResult s x flag result).redraw = s.redraw := rfl
@[simp] theorem writeFlagThenResult_mem (s : State) (x : Reg) (flag result : Byte) : (writeFlagThenResult s x flag result).mem = s.mem := rfl
@[simp] theorem writeFlagThenResult_status (s : State) (x : Reg) (flag result : Byte) : (writeFlagThenResult s x flag result).status = s.status := rfl
@[simp] theorem writeFlagThenResult_diag (s : State) (x : Reg) (flag result : Byte) : (writeFlagThenResult s x flag result).diag = s.diag := rfl
@[simp] theorem writeFlagThenResult_font (s : State) (x : Reg) (flag result : Byte) : (writeFlagThenResult s x flag result).font = s.font := rfl
@[simp] theorem writeFlagThenResult_draws (s : State) (x : Reg) (flag result : Byte) : (writeFlagThenResult s x flag result).draws = s.draws := rfl
@[simp] theorem writeFlagThenResult_pending (s : State) (x : Reg) (flag result : Byte) : (writeFlagThenResult s x flag result).pending = s.pending := rfl

/-! ## takeFault -/

@[simp] theorem takeFault_v (f : Fault) (s : State) : (takeFault f s).v = s.v := rfl
@[simp] theorem takeFault_i (f : Fault) (s : State) : (takeFault f s).i = s.i := rfl
@[simp] theorem takeFault_pc (f : Fault) (s : State) : (takeFault f s).pc = s.pc := rfl
@[simp] theorem takeFault_stack (f : Fault) (s : State) : (takeFault f s).stack = s.stack := rfl
@[simp] theorem takeFault_sp (f : Fault) (s : State) : (takeFault f s).sp = s.sp := rfl
@[simp] theorem takeFault_dt (f : Fault) (s : State) : (takeFault f s).dt = s.dt := rfl
@[simp] theorem takeFault_st (f : Fault) (s : State) : (takeFault f s).st = s.st := rfl
@[simp] theorem takeFault_disp (f : Fault) (s : State) : (takeFault f s).disp = s.disp := rfl
@[simp] theorem takeFault_key (f : Fault) (s : State) : (takeFault f s).key = s.key := rfl
@[simp] theorem takeFault_redraw (f : Fault) (s : State) : (takeFault f s).redraw = s.redraw := rfl
@[simp] theorem takeFault_mem (f : Fault) (s : State) : (takeFault f s).mem = s.mem := rfl
@[simp] theorem takeFault_status (f : Fault) (s : State) : (takeFault f s).status = .faulted f := rfl
@[simp] theorem takeFault_diag (f : Fault) (s : State) : (takeFault f s).diag = s.diag := rfl
@[simp] theorem takeFault_font (f : Fault) (s : State) : (takeFault f s).font = s.font := rfl
@[simp] theorem takeFault_draws (f : Fault) (s : State) : (takeFault f s).draws = s.draws := rfl
@[simp] theorem takeFault_pending (f : Fault) (s : State) : (takeFault f s).pending = s.pending := rfl

/-! ## clearRedraw -/

@[simp] theorem clearRedraw_v (s : State) : (clearRedraw s).v = s.v := rfl
@[simp] theorem clearRedraw_i (s : State) : (clearRedraw s).i = s.i := rfl
@[simp] theorem clearRedraw_pc (s : State) : (clearRedraw s).pc = s.pc := rfl
@[simp] theorem clearRedraw_stack (s : State) : (clearRedraw s).stack = s.stack := rfl
@[simp] theorem clearRedraw_sp (s : State) : (clearRedraw s).sp = s.sp := rfl
@[simp] theorem clearRedraw_dt (s : State) : (clearRedraw s).dt = s.dt := rfl
@[simp] theorem clearRedraw_st (s : State) : (clearRedraw s).st = s.st := rfl
@[simp] theorem clearRedraw_disp (s : State) : (clearRedraw s).disp = s.disp := rfl
@[simp] theorem clearRedraw_key (s : State) : (clearRedraw s).key = s.key := rfl
@[simp] theorem clearRedraw_redraw (s : State) : (clearRedraw s).redraw = false := rfl
@[simp] theorem clearRedraw_mem (s : State) : (clearRedraw s).mem = s.mem := rfl
@[simp] theorem clearRedraw_status (s : State) : (clearRedraw s).status = s.status := rfl
@[simp] theorem clearRedraw_diag (s : State) : (clearRedraw s).diag = s.diag := rfl
@[simp] theorem clearRedraw_font (s : State) : (clearRedraw s).font = s.font := rfl
@[simp] theorem clearRedraw_draws (s : State) : (clearRedraw s).draws = s.draws := rfl
@[simp] theorem clearRedraw_pending (s : State) : (clearRedraw s).pending = s.pending := rfl

/-! ## invalidOpcode -/

@[simp] theorem invalidOpcode_v (op : Word) (s : State) : (invalidOpcode op s).v = s.v := rfl
@[simp] theorem invalidOpcode_i (op : Word) (s : State) : (invalidOpcode op s).i = s.i := rfl
@[simp] theorem invalidOpcode_pc (op : Word) (s : State) : (invalidOpcode op s).pc = s.pc + 2 := rfl
@[simp] theorem invalidOpcode_stack (op : Word) (s : State) : (invalidOpcode op s).stack = s.stack := rfl
@[simp] theorem invalidOpcode_sp (op : Word) (s : State) : (invalidOpcode op s).sp = s.sp := rfl
@[simp] theorem invalidOpcode_dt (op : Word) (s : State) : (invalidOpcode op s).dt = s.dt := rfl
@[simp] theorem invalidOpcode_st (op : Word) (s : State) : (invalidOpcode op s).st = s.st := rfl
@[simp] theorem invalidOpcode_disp (op : Word) (s : State) : (invalidOpcode op s).disp = s.disp := rfl
@[simp] theorem invalidOpcode_key (op : Word) (s : State) : (invalidOpcode op s).key = s.key := rfl
@[simp] theorem invalidOpcode_redraw (op : Word) (s : State) : (invalidOpcode op s).redraw = s.redraw := rfl
@[simp] theorem invalidOpcode_mem (op : Word) (s : State) : (invalidOpcode op s).mem = s.mem := rfl
@[simp] theorem invalidOpcode_status (op : Word) (s : State) : (invalidOpcode op s).status = s.status := rfl
@[simp] theorem invalidOpcode_diag (op : Word) (s : State) : (invalidOpcode op s).diag = s.diag ++ [⟨op, s.pc⟩] := rfl
@[simp] theorem invalidOpcode_font (op : Word) (s : State) : (invalidOpcode op s).font = s.font := rfl
@[simp] theorem invalidOpcode_draws (op : Word) (s : State) : (invalidOpcode op s).draws = s.draws := rfl
@[simp] theorem invalidOpcode_pending (op : Word) (s : State) : (invalidOpcode op s).pending = s.pending := rfl

/-! ## drawRand8 -/

@[simp] theorem drawRand8_v (s : State) : (drawRand8 s).2.v = s.v := rfl
@[simp] theorem drawRand8_i (s : State) : (drawRand8 s).2.i = s.i := rfl
@[simp] theorem drawRand8_pc (s : State) : (drawRand8 s).2.pc = s.pc := rfl
@[simp] theorem drawRand8_stack (s : State) : (drawRand8 s).2.stack = s.stack := rfl
@[simp] theorem drawRand8_sp (s : State) : (drawRand8 s).2.sp = s.sp := rfl
@[simp] theorem drawRand8_dt (s : State) : (drawRand8 s).2.dt = s.dt := rfl
@[simp] theorem drawRand8_st (s : State) : (drawRand8 s).2.st = s.st := rfl
@[simp] theorem drawRand8_disp (s : State) : (drawRand8 s).2.disp = s.disp := rfl
@[simp] theorem drawRand8_key (s : State) : (drawRand8 s).2.key = s.key := rfl
@[simp] theorem drawRand8_redraw (s : State) : (drawRand8 s).2.redraw = s.redraw := rfl
@[simp] theorem drawRand8_mem (s : State) : (drawRand8 s).2.mem = s.mem := rfl
@[simp] theorem drawRand8_status (s : State) : (drawRand8 s).2.status = s.status := rfl
@[simp] theorem drawRand8_diag (s : State) : (drawRand8 s).2.diag = s.diag := rfl
@[simp] theorem drawRand8_font (s : State) : (drawRand8 s).2.font = s.font := rfl
@[simp] theorem drawRand8_draws (s : State) : (drawRand8 s).2.draws = s.draws + 1 := rfl
@[simp] theorem drawRand8_pending (s : State) : (drawRand8 s).2.pending = s.pending := rfl

/-! ## tick60 -/

@[simp] theorem tick60_v (s : State) : (tick60 s).v = s.v := rfl
@[simp] theorem tick60_i (s : State) : (tick60 s).i = s.i := rfl
@[simp] theorem tick60_pc (s : State) : (tick60 s).pc = s.pc := rfl
@[simp] theorem tick60_stack (s : State) : (tick60 s).stack = s.stack := rfl
@[simp] theorem tick60_sp (s : State) : (tick60 s).sp = s.sp := rfl
@[simp] theorem tick60_dt (s : State) : (tick60 s).dt = decrementTimer s.dt := rfl
@[simp] theorem tick60_st (s : State) : (tick60 s).st = decrementTimer s.st := rfl
@[simp] theorem tick60_disp (s : State) : (tick60 s).disp = s.disp := rfl
@[simp] theorem tick60_key (s : State) : (tick60 s).key = s.key := rfl
@[simp] theorem tick60_redraw (s : State) : (tick60 s).redraw = s.redraw := rfl
@[simp] theorem tick60_mem (s : State) : (tick60 s).mem = s.mem := rfl
@[simp] theorem tick60_status (s : State) : (tick60 s).status = s.status := rfl
@[simp] theorem tick60_diag (s : State) : (tick60 s).diag = s.diag := rfl
@[simp] theorem tick60_font (s : State) : (tick60 s).font = s.font := rfl
@[simp] theorem tick60_draws (s : State) : (tick60 s).draws = s.draws := rfl
@[simp] theorem tick60_pending (s : State) : (tick60 s).pending = s.pending := rfl

/-! ## skipIf -/

@[simp] theorem skipIf_v (s : State) (c : Bool) : (skipIf s c).v = s.v := by cases c <;> rfl
@[simp] theorem skipIf_i (s : State) (c : Bool) : (skipIf s c).i = s.i := by cases c <;> rfl
@[simp] theorem skipIf_pc (s : State) (c : Bool) :
    (skipIf s c).pc = if c then s.pc + 4 else s.pc + 2 := by cases c <;> rfl
@[simp] theorem skipIf_stack (s : State) (c : Bool) : (skipIf s c).stack = s.stack := by cases c <;> rfl
@[simp] theorem skipIf_sp (s : State) (c : Bool) : (skipIf s c).sp = s.sp := by cases c <;> rfl
@[simp] theorem skipIf_dt (s : State) (c : Bool) : (skipIf s c).dt = s.dt := by cases c <;> rfl
@[simp] theorem skipIf_st (s : State) (c : Bool) : (skipIf s c).st = s.st := by cases c <;> rfl
@[simp] theorem skipIf_disp (s : State) (c : Bool) : (skipIf s c).disp = s.disp := by cases c <;> rfl
@[simp] theorem skipIf_key (s : State) (c : Bool) : (skipIf s c).key = s.key := by cases c <;> rfl
@[simp] theorem skipIf_redraw (s : State) (c : Bool) : (skipIf s c).redraw = s.redraw := by cases c <;> rfl
@[simp] theorem skipIf_mem (s : State) (c : Bool) : (skipIf s c).mem = s.mem := by cases c <;> rfl
@[simp] theorem skipIf_status (s : State) (c : Bool) : (skipIf s c).status = s.status := by cases c <;> rfl
@[simp] theorem skipIf_diag (s : State) (c : Bool) : (skipIf s c).diag = s.diag := by cases c <;> rfl
@[simp] theorem skipIf_font (s : State) (c : Bool) : (skipIf s c).font = s.font := by cases c <;> rfl
@[simp] theorem skipIf_draws (s : State) (c : Bool) : (skipIf s c).draws = s.draws := by cases c <;> rfl
@[simp] theorem skipIf_pending (s : State) (c : Bool) : (skipIf s c).pending = s.pending := by cases c <;> rfl

/-! ## init -/

@[simp] theorem init_v (s : State) : (init s).v = State.reset.v := rfl
@[simp] theorem init_i (s : State) : (init s).i = State.reset.i := rfl
@[simp] theorem init_pc (s : State) : (init s).pc = State.reset.pc := rfl
@[simp] theorem init_stack (s : State) : (init s).stack = State.reset.stack := rfl
@[simp] theorem init_sp (s : State) : (init s).sp = State.reset.sp := rfl
@[simp] theorem init_dt (s : State) : (init s).dt = State.reset.dt := rfl
@[simp] theorem init_st (s : State) : (init s).st = State.reset.st := rfl
@[simp] theorem init_disp (s : State) : (init s).disp = State.reset.disp := rfl
@[simp] theorem init_key (s : State) : (init s).key = State.reset.key := rfl
@[simp] theorem init_redraw (s : State) : (init s).redraw = State.reset.redraw := rfl
@[simp] theorem init_mem (s : State) : (init s).mem = State.reset.mem := rfl
@[simp] theorem init_status (s : State) : (init s).status = State.reset.status := rfl
@[simp] theorem init_diag (s : State) : (init s).diag = s.diag := rfl
@[simp] theorem init_font (s : State) : (init s).font = s.font := rfl
@[simp] theorem init_draws (s : State) : (init s).draws = s.draws := rfl
@[simp] theorem init_pending (s : State) : (init s).pending = s.pending := rfl

end Sys2Proof.Machine
end

