-- ==== Sys2Proof/Laws/Ops.lean ====
section
/-! SUPPORT. One lemma per shared operation that says once everything it can do. -/

namespace Sys2Proof.Machine

/-! ## Registers -/

theorem readReg_writeReg (s : State) (x r : Reg) (b : Byte) :
    readReg (writeReg s x b) r = if r = x then b else readReg s r := by
  simp only [readReg, writeReg, Vector.getElem_set, Fin.ext_iff, eq_comm]

@[simp] theorem readReg_writeReg_same (s : State) (x : Reg) (b : Byte) :
    readReg (writeReg s x b) x = b := by simp [readReg_writeReg]

theorem readReg_writeReg_ne (s : State) {x r : Reg} (b : Byte) (h : r ≠ x) :
    readReg (writeReg s x b) r = readReg s r := by simp [readReg_writeReg, h]

@[simp] theorem readReg_setI (s : State) (w : Word) (r : Reg) : readReg (setI s w) r = readReg s r := rfl
@[simp] theorem readReg_setPc (s : State) (w : Word) (r : Reg) : readReg (setPc s w) r = readReg s r := rfl
@[simp] theorem readReg_advance (s : State) (r : Reg) : readReg (advance s) r = readReg s r := rfl
@[simp] theorem readReg_skipIf (s : State) (c : Bool) (r : Reg) :
    readReg (skipIf s c) r = readReg s r := by cases c <;> rfl
@[simp] theorem readReg_setDt (s : State) (b : Byte) (r : Reg) : readReg (setDt s b) r = readReg s r := rfl
@[simp] theorem readReg_setSt (s : State) (b : Byte) (r : Reg) : readReg (setSt s b) r = readReg s r := rfl
@[simp] theorem readReg_setMem (s : State) (m : List Host.Cell) (r : Reg) :
    readReg (setMem s m) r = readReg s r := rfl
@[simp] theorem readReg_setDisp (s : State) (d : List Host.Cell) (r : Reg) :
    readReg (setDisp s d) r = readReg s r := rfl
@[simp] theorem readReg_drawRand8 (s : State) (r : Reg) :
    readReg (drawRand8 s).2 r = readReg s r := rfl
@[simp] theorem readReg_takeFault (f : Fault) (s : State) (r : Reg) :
    readReg (takeFault f s) r = readReg s r := rfl

/-- The flag goes into VF and then the result into Vx (R160). -/
theorem readReg_writeFlagThenResult (s : State) (x r : Reg) (flag result : Byte) :
    readReg (writeFlagThenResult s x flag result) r =
      if r = x then result else if r = VF then flag else readReg s r := by
  simp only [writeFlagThenResult, readReg_advance, readReg_writeReg]

/-- Only registers and pc change, and pc goes on by 2. -/
theorem writeFlagThenResult_rest (s : State) (x : Reg) (flag result : Byte) :
    writeFlagThenResult s x flag result =
      { s with v := (writeFlagThenResult s x flag result).v, pc := s.pc + 2 } := rfl

theorem readRegs_length (s : State) (x : Reg) : (readRegs s x).length = x.val + 1 := by
  simp [readRegs]

theorem readRegs_getD (s : State) (x : Reg) {k : Nat} (h : k ≤ x.val) :
    (readRegs s x).getD k 0 = readReg s ⟨k, by omega⟩ := by
  have hk : k < (s.v.toList.take (x.val + 1)).length := by simp; omega
  simp only [readRegs, readReg]
  rw [List.getD_eq_getElem _ _ hk]
  simp

/-- Registers from k upward take the bytes, and no other register changes. -/
theorem readReg_writeRegs (s : State) (k : Nat) (bs : List Byte) (h : k + bs.length ≤ 16) (r : Reg) :
    readReg (writeRegs s k bs) r =
      if k ≤ r.val ∧ r.val < k + bs.length then bs.getD (r.val - k) 0 else readReg s r := by
  induction bs generalizing s k with
  | nil => simp only [writeRegs, List.length_nil]; rw [if_neg]; omega
  | cons b rest ih =>
    simp only [List.length_cons] at h
    simp only [writeRegs]
    rw [dif_pos (by omega), ih _ _ (by omega), readReg_writeReg]
    simp only [List.length_cons, Fin.ext_iff]
    by_cases hr : r.val = k
    · rw [if_neg (by omega), if_pos hr, if_pos (by omega), hr]; simp
    · by_cases hc : k + 1 ≤ r.val ∧ r.val < k + 1 + rest.length
      · rw [if_pos hc, if_pos (by omega)]
        obtain ⟨j, hj⟩ : ∃ j, r.val = k + 1 + j := ⟨r.val - (k + 1), by omega⟩
        rw [hj, show k + 1 + j - (k + 1) = j by omega, show k + 1 + j - k = j + 1 by omega]
        simp
      · rw [if_neg hc, if_neg hr, if_neg (by omega)]

/-- Writing registers changes registers only. -/
theorem writeRegs_rest (s : State) (k : Nat) (bs : List Byte) :
    writeRegs s k bs = { s with v := (writeRegs s k bs).v } := by
  induction bs generalizing s k with
  | nil => rfl
  | cons b rest ih =>
    simp only [writeRegs]
    split
    · rw [ih]; rfl
    · rfl

/-! ## Memory -/

@[simp] theorem memByte_setI (s : State) (w : Word) (a : Nat) : memByte (setI s w) a = memByte s a := rfl
@[simp] theorem memByte_setPc (s : State) (w : Word) (a : Nat) : memByte (setPc s w) a = memByte s a := rfl
@[simp] theorem memByte_advance (s : State) (a : Nat) : memByte (advance s) a = memByte s a := rfl

/-- Storing bytes inside memory changes those bytes and no others. -/
theorem memByte_setMem_placeBytes (s : State) {b : Nat} {bs : List Byte} (h : Memory.wf s.font s.mem)
    (hb : b + bs.length ≤ 0x1000) (a : Nat) :
    memByte (setMem s (placeBytes s.font s.mem b bs)) a =
      if b ≤ a ∧ a < b + bs.length then bs.getD (a - b) 0 else memByte s a :=
  cellsRead_placeBytes h hb a

theorem memRead_of_lt (font : Font) (m : List Host.Cell) {a : Nat} (h : a < 0x1000) :
    memRead font m a = .ok (cellsRead (resetByte font) m a) := by simp [memRead, h]

theorem memRead_of_ge (font : Font) (m : List Host.Cell) {a : Nat} (h : 0x1000 ≤ a) :
    memRead font m a = .error (.memOutOfRange a) := by simp [memRead, Nat.not_lt.2 h]

/-- Reading n bytes inside memory gives them in order. -/
theorem memReadAll_of_le (font : Font) (m : List Host.Cell) (a n : Nat) (h : n = 0 ∨ a + n ≤ 0x1000) :
    memReadAll font m a n = .ok ((List.range n).map fun k => cellsRead (resetByte font) m (a + k)) := by
  induction n generalizing a with
  | zero => rfl
  | succ n ih =>
    simp only [memReadAll]
    rw [memRead_of_lt font m (by omega), ih (a + 1) (by omega)]
    simp [List.range_succ_eq_map, Function.comp_def, Nat.add_assoc, Nat.add_comm 1]

/-- Reading past the end reports the first address that does not exist. -/
theorem memReadAll_of_gt (font : Font) (m : List Host.Cell) (a n : Nat) (hn : 0 < n) (h : 0x1000 < a + n) :
    memReadAll font m a n = .error (.memOutOfRange (max a 0x1000)) := by
  induction n generalizing a with
  | zero => omega
  | succ n ih =>
    simp only [memReadAll]
    by_cases ha : a < 0x1000
    · rw [memRead_of_lt font m ha, ih (a + 1) (by omega) (by omega)]
      simp only [Except.error.injEq, Fault.memOutOfRange.injEq]
      omega
    · rw [memRead_of_ge font m (by omega)]
      simp only [Except.error.injEq, Fault.memOutOfRange.injEq]
      omega

/-- Writing bytes inside memory places them. -/
theorem memWriteAll_of_le (font : Font) (m : List Host.Cell) (a : Nat) (bs : List Byte)
    (h : bs.length = 0 ∨ a + bs.length ≤ 0x1000) :
    memWriteAll font m a bs = .ok (placeBytes font m a bs) := by
  induction bs generalizing m a with
  | nil => rfl
  | cons b rest ih =>
    simp only [List.length_cons] at h
    simp only [memWriteAll, memWrite, Config.memSize]
    rw [if_pos (by omega)]
    exact ih _ _ (by omega)

/-- Writing past the end reports the first address that does not exist. -/
theorem memWriteAll_of_gt (font : Font) (m : List Host.Cell) (a : Nat) (bs : List Byte) (hn : 0 < bs.length)
    (h : 0x1000 < a + bs.length) :
    memWriteAll font m a bs = .error (.memOutOfRange (max a 0x1000)) := by
  induction bs generalizing m a with
  | nil => simp at hn
  | cons b rest ih =>
    simp only [List.length_cons] at h
    simp only [memWriteAll, memWrite, Config.memSize]
    by_cases ha : a < 0x1000
    · rw [if_pos ha]
      simp only
      rw [ih _ _ (by omega) (by omega)]
      simp only [Except.error.injEq, Fault.memOutOfRange.injEq]
      omega
    · rw [if_neg ha]
      simp only [Except.error.injEq, Fault.memOutOfRange.injEq]
      omega

/-- A checked write that succeeds keeps the canonical form. -/
theorem memWrite_wf {font : Font} {m m' : List Host.Cell} {a : Nat} {b : Byte} (hm : Memory.wf font m)
    (h : memWrite font m a b = .ok m') : Memory.wf font m' := by
  simp only [memWrite] at h
  split at h
  · cases h; exact cellsWrite_wf hm ‹_› b
  · cases h

/-- A checked run of writes that succeeds keeps the canonical form. -/
theorem memWriteAll_wf {font : Font} {m m' : List Host.Cell} {a : Nat} {bs : List Byte} (hm : Memory.wf font m)
    (h : memWriteAll font m a bs = .ok m') : Memory.wf font m' := by
  induction bs generalizing m a with
  | nil => cases h; exact hm
  | cons b rest ih =>
    simp only [memWriteAll] at h
    split at h
    · cases h
    · rename_i m'' e
      exact ih (memWrite_wf hm e) h

/-- A fetch inside memory. -/
theorem fetch_of_le (s : State) (h : s.pc.toNat ≤ 0xFFE) :
    fetch s = .ok (memByte s s.pc.toNat ++ memByte s (s.pc.toNat + 1)) := by
  simp only [fetch]
  rw [memRead_of_lt _ _ (by omega), memRead_of_lt _ _ (by omega)]
  rfl

/-- A fetch past the end of memory. -/
theorem fetch_of_gt (s : State) (h : 0xFFF ≤ s.pc.toNat) :
    fetch s = .error (.memOutOfRange (max s.pc.toNat 0x1000)) := by
  simp only [fetch]
  by_cases hp : s.pc.toNat < 0x1000
  · rw [memRead_of_lt _ _ hp, memRead_of_ge _ _ (by omega)]
    simp only [Except.error.injEq, Fault.memOutOfRange.injEq]
    omega
  · rw [memRead_of_ge _ _ (by omega)]
    simp only [Except.error.injEq, Fault.memOutOfRange.injEq]
    omega

/-! ## Stack and keypad -/

theorem pushPc_of_lt (s : State) (h : s.sp.val < 16) :
    pushPc s = .ok { s with stack := s.stack.set s.sp.val s.pc h, sp := ⟨s.sp.val + 1, by omega⟩ } := by
  simp [pushPc, h]

theorem pushPc_of_eq (s : State) (h : s.sp.val = 16) : pushPc s = .error .stackOverflow := by
  simp [pushPc, h]

theorem popAddr_of_pos (s : State) (h : 0 < s.sp.val) :
    popAddr s = .ok (s.stack[s.sp.val - 1]'(by omega), { s with sp := ⟨s.sp.val - 1, by omega⟩ }) := by
  simp [popAddr, Nat.pos_iff_ne_zero.1 h]

theorem popAddr_of_zero (s : State) (h : s.sp.val = 0) : popAddr s = .error .stackUnderflow := by
  simp [popAddr, h]

theorem readKey_of_lt (s : State) (k : Byte) (h : k.toNat < 16) :
    readKey s k = .ok (s.key[k.toNat]'h) := by simp [readKey, h]

theorem readKey_of_ge (s : State) (k : Byte) (h : 16 ≤ k.toNat) :
    readKey s k = .error (.keyOutOfRange k) := by simp [readKey, Nat.not_lt.2 h]

theorem mem_allKeys (k : Fin 16) : k ∈ allKeys := by revert k; decide

/-- The keys that are down are exactly those whose entry says so. -/
theorem mem_keysDown (s : State) (k : Fin 16) : k ∈ keysDown s ↔ s.key[k.val]'k.isLt = true := by
  simp [keysDown, mem_allKeys]

/-- A choice is a member of the set. -/
theorem pickKey_mem {index : Nat} {l : List (Fin 16)} {k : Fin 16} (h : pickKey index l = some k) :
    k ∈ l := by
  match l, h with
  | [a], h => simpa [pickKey, eq_comm] using h
  | a :: b :: r, h =>
    simp only [pickKey, Option.some.injEq] at h
    have hlt : index % (r.length + 2) < (a :: b :: r).length := Nat.mod_lt _ (by omega)
    rw [List.getD_eq_getElem _ _ hlt] at h
    exact h ▸ List.getElem_mem hlt

/-- There is no choice exactly from the empty set. -/
theorem pickKey_none {index : Nat} {l : List (Fin 16)} : pickKey index l = none ↔ l = [] := by
  match l with
  | [] => simp [pickKey]
  | [_] => simp [pickKey]
  | _ :: _ :: _ => simp [pickKey]

/-- Everything a draw of a key can do: no key is down, or a key that is down is drawn and only the
number of draws changes. -/
theorem drawKey_cases (s : State) :
    (drawKey s = none ∧ ∀ k : Fin 16, s.key[k.val]'k.isLt = false) ∨
    ∃ k : Fin 16, drawKey s = some (k, { s with draws := s.draws + 1 }) ∧
      s.key[k.val]'k.isLt = true := by
  cases h : pickKey (Config.keyChoice s.draws) (keysDown s) with
  | none =>
    refine .inl ⟨by simp [drawKey, h], fun k => ?_⟩
    have hk := mem_keysDown s k
    rw [pickKey_none.1 h] at hk
    simpa using hk
  | some k => exact .inr ⟨k, by simp [drawKey, h], (mem_keysDown s k).1 (pickKey_mem h)⟩

/-! ## Ending an instruction -/

/-- An instruction that ends ends in a next state, its effect or the fault it raised. -/
theorem finish_eq_next {s t : State} {r : Except Fault State} (h : finish s r = .next t) :
    r = .ok t ∨ ∃ f, r = .error f ∧ t = takeFault f s := by
  cases r with
  | ok u => left; simpa [finish] using h
  | error f => right; exact ⟨f, rfl, by simpa [finish, eq_comm] using h⟩

end Sys2Proof.Machine
end

