-- ==== Sys2Proof/Laws/Display.lean ====
section
/-! SUPPORT. What drawing does: the loops of R131 pixel by pixel, and that they keep the display's
canonical form and its pixels 0 or 1. -/

namespace Sys2Proof.Machine

theorem pixelIndex_inj {X Y X' Y' : Nat} (h : X < 64) (h' : X' < 64) :
    pixelIndex X Y = pixelIndex X' Y' ↔ X = X' ∧ Y = Y' := by
  simp only [pixelIndex, Config.dispW]; omega

theorem pixelIndex_lt {X Y : Nat} (hX : X < 64) (hY : Y < 32) : pixelIndex X Y < Config.dispSize := by
  simp only [pixelIndex, Config.dispW, Config.dispSize]; omega

/-- A pixel of a binary display is 0 or 1. -/
theorem binary_read {d : List Host.Cell} (hb : Display.binary d) (k : Nat) :
    cellsRead offByte d k = 0 ∨ cellsRead offByte d k = 1 := by
  by_cases h : cellsRead offByte d k = offByte k
  · exact .inl h
  · exact .inr (hb _ (mem_of_cellsRead_ne h))

/-- What one toggle does (R131, R132). -/
theorem togglePixel_spec (X Y : Nat) (d : List Host.Cell × Bool) (hw : Display.wf d.1)
    (hb : Display.binary d.1) :
    Display.wf (togglePixel X Y d).1 ∧ Display.binary (togglePixel X Y d).1 ∧
    (∀ X' Y', X' < 64 → Y' < 32 → cellsRead offByte (togglePixel X Y d).1 (pixelIndex X' Y') =
      if X' = X ∧ Y' = Y then cellsRead offByte d.1 (pixelIndex X' Y') ^^^ 1
      else cellsRead offByte d.1 (pixelIndex X' Y')) ∧
    ((togglePixel X Y d).2 = true ↔
      d.2 = true ∨ (X < 64 ∧ Y < 32 ∧ cellsRead offByte d.1 (pixelIndex X Y) = 1)) := by
  unfold togglePixel
  by_cases h : X < 64 ∧ Y < 32
  · rw [if_pos h]
    refine ⟨cellsWrite_wf hw (pixelIndex_lt h.1 h.2) _, ?_, ?_, ?_⟩
    · intro c hc
      rcases mem_cellsWrite hc with hc | ⟨rfl, hx⟩
      · exact hb c hc
      · rcases binary_read hb (pixelIndex X Y) with e | e <;> simp_all [offByte]
    · intro X' Y' hX' hY'
      simp only
      rw [cellsRead_cellsWrite hw]
      simp only [pixelIndex_inj hX' h.1]
      split
      · rename_i e; rw [e.1, e.2]
      · rfl
    · simp [h]
  · rw [if_neg h]
    refine ⟨hw, hb, fun X' Y' hX' hY' => ?_, ?_⟩
    · rw [if_neg]; rintro ⟨rfl, rfl⟩; exact h ⟨hX', hY'⟩
    · simp only [iff_self_or, and_imp]; intro a b; exact absurd ⟨a, b⟩ h

/-- What a run of columns of one sprite row does. -/
theorem drawColumns_spec (px Y : Nat) (row : Byte) (cols : List Nat) (hn : cols.Nodup)
    (d : List Host.Cell × Bool) (hw : Display.wf d.1) (hb : Display.binary d.1) :
    let r := cols.foldl (fun d i => if spriteBit row i then togglePixel (px + i) Y d else d) d
    Display.wf r.1 ∧ Display.binary r.1 ∧
    (∀ X' Y', X' < 64 → Y' < 32 → cellsRead offByte r.1 (pixelIndex X' Y') =
      if Y' = Y ∧ ∃ i ∈ cols, X' = px + i ∧ spriteBit row i = true then
        cellsRead offByte d.1 (pixelIndex X' Y') ^^^ 1
      else cellsRead offByte d.1 (pixelIndex X' Y')) ∧
    (r.2 = true ↔ d.2 = true ∨ ∃ i ∈ cols, spriteBit row i = true ∧ px + i < 64 ∧ Y < 32 ∧
      cellsRead offByte d.1 (pixelIndex (px + i) Y) = 1) := by
  induction cols generalizing d with
  | nil => refine ⟨hw, hb, ?_, ?_⟩ <;> simp
  | cons i rest ih =>
    obtain ⟨hi, hr⟩ := List.nodup_cons.1 hn
    simp only [List.foldl_cons]
    by_cases hbit : spriteBit row i = true
    · rw [if_pos hbit]
      obtain ⟨tw, tb, tp, tf⟩ := togglePixel_spec (px + i) Y d hw hb
      obtain ⟨rw', rb, rp, rf⟩ := ih hr _ tw tb
      refine ⟨rw', rb, fun X' Y' hX' hY' => ?_, ?_⟩
      · rw [rp X' Y' hX' hY', tp X' Y' hX' hY']
        by_cases hY : Y' = Y
        · by_cases hX : X' = px + i
          · have hnot : ¬ ∃ j ∈ rest, X' = px + j ∧ spriteBit row j = true := by
              rintro ⟨j, hj, e, -⟩
              exact hi (by rwa [show i = j by omega])
            rw [if_neg fun h => hnot h.2, if_pos ⟨hX, hY⟩, if_pos ⟨hY, i, List.mem_cons_self, hX, hbit⟩]
          · simp only [hX, false_and, if_false, List.mem_cons, exists_eq_or_imp, false_or]
        · simp [hY]
      · rw [rf, tf]
        have same : ∀ j ∈ rest, px + j < 64 → Y < 32 →
            cellsRead offByte (togglePixel (px + i) Y d).1 (pixelIndex (px + j) Y) =
              cellsRead offByte d.1 (pixelIndex (px + j) Y) := by
          intro j hj h1 h2
          rw [tp _ _ h1 h2, if_neg]
          rintro ⟨e, -⟩
          exact hi (by rwa [show i = j by omega])
        constructor
        · rintro ((h | h) | ⟨j, hj, h0, h1, h2, h3⟩)
          · exact .inl h
          · exact .inr ⟨i, List.mem_cons_self, hbit, h⟩
          · exact .inr ⟨j, List.mem_cons_of_mem _ hj, h0, h1, h2, by rwa [← same j hj h1 h2]⟩
        · rintro (h | ⟨j, hj, h0, h1, h2, h3⟩)
          · exact .inl (.inl h)
          · rcases List.mem_cons.1 hj with rfl | hj
            · exact .inl (.inr ⟨h1, h2, h3⟩)
            · exact .inr ⟨j, hj, h0, h1, h2, by rwa [same j hj h1 h2]⟩
    · rw [if_neg hbit]
      obtain ⟨rw', rb, rp, rf⟩ := ih hr d hw hb
      refine ⟨rw', rb, fun X' Y' hX' hY' => ?_, ?_⟩
      · rw [rp X' Y' hX' hY']
        simp [hbit]
      · rw [rf]
        simp [hbit]

/-- A column of a sprite row, as an offset from its left edge (R133). -/
theorem exists_spriteColumn (px X : Nat) (p : Nat → Prop) :
    (∃ i ∈ spriteColumns, X = px + i ∧ p i) ↔ px ≤ X ∧ X < px + 8 ∧ p (X - px) := by
  constructor
  · rintro ⟨i, hi, rfl, hp⟩
    have : i < 8 := by revert hi; simp only [spriteColumns]; simp; omega
    exact ⟨by omega, by omega, by rwa [Nat.add_sub_cancel_left]⟩
  · rintro ⟨h1, h2, hp⟩
    refine ⟨X - px, ?_, by omega, hp⟩
    simp only [spriteColumns]; simp; omega

/-- What one sprite row does. -/
theorem drawRow_spec (px Y : Nat) (row : Byte) (d : List Host.Cell × Bool) (hw : Display.wf d.1)
    (hb : Display.binary d.1) :
    Display.wf (drawRow px Y row d).1 ∧ Display.binary (drawRow px Y row d).1 ∧
    (∀ X' Y', X' < 64 → Y' < 32 → cellsRead offByte (drawRow px Y row d).1 (pixelIndex X' Y') =
      if Y' = Y ∧ px ≤ X' ∧ X' < px + 8 ∧ spriteBit row (X' - px) = true then
        cellsRead offByte d.1 (pixelIndex X' Y') ^^^ 1
      else cellsRead offByte d.1 (pixelIndex X' Y')) ∧
    ((drawRow px Y row d).2 = true ↔ d.2 = true ∨ ∃ X, X < 64 ∧ Y < 32 ∧ px ≤ X ∧ X < px + 8 ∧
      spriteBit row (X - px) = true ∧ cellsRead offByte d.1 (pixelIndex X Y) = 1) := by
  obtain ⟨h1, h2, h3, h4⟩ := drawColumns_spec px Y row spriteColumns (by decide) d hw hb
  refine ⟨h1, h2, fun X' Y' hX' hY' => ?_, ?_⟩
  · rw [drawRow, h3 X' Y' hX' hY']
    simp only [exists_spriteColumn px X' fun i => spriteBit row i = true]
  · rw [drawRow, h4]
    refine or_congr_right ⟨?_, ?_⟩
    · rintro ⟨i, hi, e0, e1, e2, e3⟩
      have : i < 8 := by revert hi; simp only [spriteColumns]; simp; omega
      exact ⟨px + i, e1, e2, by omega, by omega, by rwa [Nat.add_sub_cancel_left], e3⟩
    · rintro ⟨X, e1, e2, e3, e4, e5, e6⟩
      obtain ⟨i, hi, rfl, hp⟩ := (exists_spriteColumn px X fun i => spriteBit row i = true).2 ⟨e3, e4, e5⟩
      exact ⟨i, hi, hp, e1, e2, e6⟩

/-- What drawing a sprite does: it toggles exactly the pixels of the screen the sprite has set, and
reports whether one of them was on (R131, R132). -/
theorem drawRows_spec (px py : Nat) (rows : List Byte) (d : List Host.Cell × Bool)
    (hw : Display.wf d.1) (hb : Display.binary d.1) :
    Display.wf (drawRows px py rows d).1 ∧ Display.binary (drawRows px py rows d).1 ∧
    (∀ X Y, X < 64 → Y < 32 → cellsRead offByte (drawRows px py rows d).1 (pixelIndex X Y) =
      if spriteCovers px py (fun j => rows.getD j 0) rows.length X Y then
        cellsRead offByte d.1 (pixelIndex X Y) ^^^ 1
      else cellsRead offByte d.1 (pixelIndex X Y)) ∧
    ((drawRows px py rows d).2 = true ↔ d.2 = true ∨ ∃ X Y, X < 64 ∧ Y < 32 ∧
      spriteCovers px py (fun j => rows.getD j 0) rows.length X Y ∧
      cellsRead offByte d.1 (pixelIndex X Y) = 1) := by
  induction rows generalizing py d with
  | nil =>
    refine ⟨hw, hb, fun X Y _ _ => ?_, ?_⟩
    · rw [if_neg]; · rfl
      rintro ⟨-, -, h1, h2, -⟩; simp at h2; omega
    · simp only [drawRows, iff_self_or]
      rintro ⟨X, Y, -, -, ⟨-, -, h1, h2, -⟩, -⟩; simp at h2; omega
  | cons row rest ih =>
    obtain ⟨aw, ab, ap, af⟩ := drawRow_spec px py row d hw hb
    obtain ⟨bw, bb, bp, bf⟩ := ih (py + 1) _ aw ab
    have head : ∀ X, spriteCovers px py (fun j => (row :: rest).getD j 0) (row :: rest).length X py ↔
        px ≤ X ∧ X < px + 8 ∧ spriteBit row (X - px) = true := by
      intro X; simp [spriteBit]
    have tail : ∀ X Y, Y ≠ py →
        (spriteCovers px py (fun j => (row :: rest).getD j 0) (row :: rest).length X Y ↔
          spriteCovers px (py + 1) (fun j => rest.getD j 0) rest.length X Y) := by
      intro X Y hY
      by_cases hlt : py < Y
      · obtain ⟨k, rfl⟩ : ∃ k, Y = py + 1 + k := ⟨Y - (py + 1), by omega⟩
        simp only [spriteCovers, List.length_cons]
        rw [show py + 1 + k - py = k + 1 by omega, show py + 1 + k - (py + 1) = k by omega]
        simp only [List.getD_cons_succ]
        constructor <;> rintro ⟨a, b, c, e, f⟩ <;> exact ⟨a, b, by omega, by omega, f⟩
      · constructor <;> rintro ⟨a, b, c, e, f⟩ <;> omega
    have nottail : ∀ X, ¬ spriteCovers px (py + 1) (fun j => rest.getD j 0) rest.length X py := by
      rintro X ⟨-, -, h, -⟩; omega
    simp only [drawRows]
    refine ⟨bw, bb, fun X Y hX hY => ?_, ?_⟩
    · rw [bp X Y hX hY, ap X Y hX hY]
      by_cases hY' : Y = py
      · subst hY'
        rw [if_neg (nottail X)]
        simp only [head, true_and]
      · simp only [tail X Y hY', hY', false_and, if_false]
    · rw [bf, af]
      have same : ∀ X Y, X < 64 → Y < 32 → Y ≠ py →
          cellsRead offByte (drawRow px py row d).1 (pixelIndex X Y) =
            cellsRead offByte d.1 (pixelIndex X Y) := by
        intro X Y hX hY hne; rw [ap X Y hX hY]; simp [hne]
      constructor
      · rintro ((h | ⟨X, h0, h1, h2, h3, h4, h5⟩) | ⟨X, Y, h0, h1, h2, h3⟩)
        · exact .inl h
        · exact .inr ⟨X, py, h0, h1, (head X).2 ⟨h2, h3, h4⟩, h5⟩
        · have hne : Y ≠ py := by rintro rfl; exact nottail X h2
          exact .inr ⟨X, Y, h0, h1, (tail X Y hne).2 h2, by rwa [← same X Y h0 h1 hne]⟩
      · rintro (h | ⟨X, Y, h0, h1, h2, h3⟩)
        · exact .inl (.inl h)
        · by_cases hne : Y = py
          · subst hne
            obtain ⟨a, b, c⟩ := (head X).1 h2
            exact .inl (.inr ⟨X, h0, h1, a, b, c, h3⟩)
          · exact .inr ⟨X, Y, h0, h1, (tail X Y hne).1 h2, by rwa [same X Y h0 h1 hne]⟩

end Sys2Proof.Machine
end

