-- ==== Sys2Proof/Laws/Exec.lean ====
section
/-! SUPPORT. For each instruction that can fault or wait: what its meaning answers where it completes, and
what it answers where it does not. -/

namespace Sys2Proof.Machine

/-- The bytes at I, I + 1, ..., of which a data access reads the first n (R186). -/
def dataBytes (s : State) (n : Nat) : List Byte :=
  (List.range n).map fun k => memByte s (baseAddr s + k)

@[simp] theorem dataBytes_length (s : State) (n : Nat) : (dataBytes s n).length = n := by
  simp [dataBytes]

theorem dataBytes_getD (s : State) {n k : Nat} (h : k < n) :
    (dataBytes s n).getD k 0 = memByte s (baseAddr s + k) := by
  rw [List.getD_eq_getElem _ _ (by simpa using h)]
  simp [dataBytes]

theorem execRet_of_pos (s : State) (h : 0 < s.sp.val) :
    execRet s = .next { s with
      sp := ⟨s.sp.val - 1, by omega⟩, pc := s.stack[s.sp.val - 1]'(by omega) + 2 } := by
  simp only [execRet, popAddr_of_pos s h]; rfl

theorem execRet_of_zero (s : State) (h : s.sp.val = 0) :
    execRet s = .next (takeFault .stackUnderflow s) := by
  simp only [execRet, popAddr_of_zero s h]; rfl

theorem execCall_of_lt (nnn : Word) (s : State) (h : s.sp.val < 16) :
    execCall nnn s = .next { s with
      stack := s.stack.set s.sp.val s.pc h, sp := ⟨s.sp.val + 1, by omega⟩, pc := nnn } := by
  simp only [execCall, pushPc_of_lt s h]; rfl

theorem execCall_of_eq (nnn : Word) (s : State) (h : s.sp.val = 16) :
    execCall nnn s = .next (takeFault .stackOverflow s) := by
  simp only [execCall, pushPc_of_eq s h]; rfl

theorem execSkp_of_lt (x : Reg) (s : State) (h : (readReg s x).toNat < 16) :
    execSkp x s = .next (skipIf s (s.key[(readReg s x).toNat]'h)) := by
  simp only [execSkp, readKey_of_lt s _ h]; rfl

theorem execSkp_of_ge (x : Reg) (s : State) (h : 16 ≤ (readReg s x).toNat) :
    execSkp x s = .next (takeFault (.keyOutOfRange (readReg s x)) s) := by
  simp only [execSkp, readKey_of_ge s _ h]; rfl

theorem execSknp_of_lt (x : Reg) (s : State) (h : (readReg s x).toNat < 16) :
    execSknp x s = .next (skipIf s (!s.key[(readReg s x).toNat]'h)) := by
  simp only [execSknp, readKey_of_lt s _ h]; rfl

theorem execSknp_of_ge (x : Reg) (s : State) (h : 16 ≤ (readReg s x).toNat) :
    execSknp x s = .next (takeFault (.keyOutOfRange (readReg s x)) s) := by
  simp only [execSknp, readKey_of_ge s _ h]; rfl

theorem execDrw_of_le (x y : Reg) (n : Nat) (s : State) (h : n = 0 ∨ baseAddr s + n ≤ 0x1000) :
    execDrw x y n s = .next (advance (writeReg
      (setDisp s
        (drawRows (readReg s x).toNat (readReg s y).toNat (dataBytes s n) (s.disp, false)).1) VF
      (flagByte
        (drawRows (readReg s x).toNat (readReg s y).toNat (dataBytes s n) (s.disp, false)).2))) := by
  simp only [execDrw, memReadAll_of_le s.font s.mem (baseAddr s) n h]; rfl

theorem execDrw_of_gt (x y : Reg) (n : Nat) (s : State) (hn : 0 < n) (h : 0x1000 < baseAddr s + n) :
    execDrw x y n s = .next (takeFault (.memOutOfRange (max (baseAddr s) 0x1000)) s) := by
  simp only [execDrw, memReadAll_of_gt s.font s.mem (baseAddr s) n hn h]; rfl

theorem execLdB_of_le (x : Reg) (s : State) (h : baseAddr s + 3 ≤ 0x1000) :
    execLdB x s = .next (advance (setMem s
      (placeBytes s.font s.mem (baseAddr s) (decimalDigits (readReg s x))))) := by
  simp only [execLdB,
    memWriteAll_of_le s.font s.mem (baseAddr s) (decimalDigits (readReg s x)) (.inr h)]; rfl

theorem execLdB_of_gt (x : Reg) (s : State) (h : 0x1000 < baseAddr s + 3) :
    execLdB x s = .next (takeFault (.memOutOfRange (max (baseAddr s) 0x1000)) s) := by
  simp only [execLdB,
    memWriteAll_of_gt s.font s.mem (baseAddr s) (decimalDigits (readReg s x)) (Nat.succ_pos _) h]; rfl

theorem execStoreRegs_of_le (x : Reg) (s : State) (h : baseAddr s + (x.val + 1) ≤ 0x1000) :
    execStoreRegs x s = .next (advance (setI
      (setMem s (placeBytes s.font s.mem (baseAddr s) (readRegs s x))) (postIncrement s.i (x.val + 1)))) := by
  simp only [execStoreRegs, memWriteAll_of_le s.font s.mem (baseAddr s) (readRegs s x)
    (.inr (by rw [readRegs_length]; exact h))]
  rfl

theorem execStoreRegs_of_gt (x : Reg) (s : State) (h : 0x1000 < baseAddr s + (x.val + 1)) :
    execStoreRegs x s = .next (takeFault (.memOutOfRange (max (baseAddr s) 0x1000)) s) := by
  simp only [execStoreRegs, memWriteAll_of_gt s.font s.mem (baseAddr s) (readRegs s x)
    (by rw [readRegs_length]; omega) (by rw [readRegs_length]; exact h)]
  rfl

theorem execLoadRegs_of_le (x : Reg) (s : State) (h : baseAddr s + (x.val + 1) ≤ 0x1000) :
    execLoadRegs x s = .next (advance (setI
      (writeRegs s 0 (dataBytes s (x.val + 1))) (postIncrement s.i (x.val + 1)))) := by
  simp only [execLoadRegs, memReadAll_of_le s.font s.mem (baseAddr s) (x.val + 1) (.inr h)]; rfl

theorem execLoadRegs_of_gt (x : Reg) (s : State) (h : 0x1000 < baseAddr s + (x.val + 1)) :
    execLoadRegs x s = .next (takeFault (.memOutOfRange (max (baseAddr s) 0x1000)) s) := by
  simp only [execLoadRegs, memReadAll_of_gt s.font s.mem (baseAddr s) (x.val + 1) (Nat.succ_pos _) h]; rfl

/-- Fx0A waits when no key is down, and else takes a key that is. -/
theorem execLdVxK_cases (x : Reg) (s : State) :
    ((∀ k : Fin 16, s.key[k.val]'k.isLt = false) ∧ execLdVxK x s = .next s) ∨
    ∃ k : Fin 16, s.key[k.val]'k.isLt = true ∧
      execLdVxK x s = .next (advance (writeReg { s with draws := s.draws + 1 } x (toByte k.val))) := by
  rcases drawKey_cases s with ⟨e, h⟩ | ⟨k, e, h⟩
  · exact .inl ⟨h, by simp only [execLdVxK, e]⟩
  · exact .inr ⟨k, h, by simp only [execLdVxK, e]⟩

end Sys2Proof.Machine
end

