-- ==== Sys2Proof/Laws/PerInstr.lean ====
section
/-! SUPPORT. Statements about every instruction, one lemma per constructor (LAWS.json). -/

namespace Sys2Proof.Laws.EncodeMatchesRow

/-- The mnemonic of spec/opcode_table.json for each constructor. -/
def mnemonicOf : Instr → String
  | .cls => "00E0"
  | .ret => "00EE"
  | .jp _ => "1nnn"
  | .call _ => "2nnn"
  | .seImm _ _ => "3xnn"
  | .sneImm _ _ => "4xnn"
  | .seReg _ _ => "5xy0"
  | .sneReg _ _ => "9xy0"
  | .ldImm _ _ => "6xnn"
  | .addImm _ _ => "7xnn"
  | .ldReg _ _ => "8xy0"
  | .orReg _ _ => "8xy1"
  | .andReg _ _ => "8xy2"
  | .xorReg _ _ => "8xy3"
  | .addReg _ _ => "8xy4"
  | .subReg _ _ => "8xy5"
  | .shr _ _ => "8xy6"
  | .subnReg _ _ => "8xy7"
  | .shl _ _ => "8xyE"
  | .ldI _ => "Annn"
  | .jpV0 _ => "Bnnn"
  | .rnd _ _ => "Cxnn"
  | .drw _ _ _ => "Dxyn"
  | .skp _ => "Ex9E"
  | .sknp _ => "ExA1"
  | .ldVxDt _ => "Fx07"
  | .ldDtVx _ => "Fx15"
  | .ldStVx _ => "Fx18"
  | .ldVxK _ => "Fx0A"
  | .addI _ => "Fx1E"
  | .ldF _ => "Fx29"
  | .ldB _ => "Fx33"
  | .storeRegs _ => "Fx55"
  | .loadRegs _ => "Fx65"

/-- The instruction's word satisfies the mask and pattern of the row of the opcode map that has its
mnemonic (R74). -/
def Statement (i : Instr) : Prop :=
  ∃ k, ∃ h : k < opcodeMap.length, (opcodeMap[k]'h).mnemonic = mnemonicOf i ∧
    (opcodeMap[k]'h).accepts (encode i)

theorem cls : Statement .cls :=
  ⟨0, by decide, rfl, (mask_top_byte _ 0#4 224#8).2 (by simp [encode])⟩

theorem ret : Statement .ret :=
  ⟨1, by decide, rfl, (mask_top_byte _ 0#4 238#8).2 (by simp [encode])⟩

theorem jp (nnn : Word) : Statement (.jp nnn) :=
  ⟨2, by decide, rfl, (mask_top _ 1#4).2 (by simp [encode])⟩

theorem call (nnn : Word) : Statement (.call nnn) :=
  ⟨3, by decide, rfl, (mask_top _ 2#4).2 (by simp [encode])⟩

theorem seImm (x : Reg) (nn : Byte) : Statement (.seImm x nn) :=
  ⟨4, by decide, rfl, (mask_top _ 3#4).2 (by simp [encode])⟩

theorem sneImm (x : Reg) (nn : Byte) : Statement (.sneImm x nn) :=
  ⟨5, by decide, rfl, (mask_top _ 4#4).2 (by simp [encode])⟩

theorem seReg (x : Reg) (y : Reg) : Statement (.seReg x y) :=
  ⟨6, by decide, rfl, (mask_top _ 5#4).2 (by simp [encode])⟩

theorem sneReg (x : Reg) (y : Reg) : Statement (.sneReg x y) :=
  ⟨7, by decide, rfl, (mask_top _ 9#4).2 (by simp [encode])⟩

theorem ldImm (x : Reg) (nn : Byte) : Statement (.ldImm x nn) :=
  ⟨8, by decide, rfl, (mask_top _ 6#4).2 (by simp [encode])⟩

theorem addImm (x : Reg) (nn : Byte) : Statement (.addImm x nn) :=
  ⟨9, by decide, rfl, (mask_top _ 7#4).2 (by simp [encode])⟩

theorem ldReg (x : Reg) (y : Reg) : Statement (.ldReg x y) :=
  ⟨10, by decide, rfl, (mask_top_low _ 8#4 0#4).2 (by simp [encode])⟩

theorem orReg (x : Reg) (y : Reg) : Statement (.orReg x y) :=
  ⟨11, by decide, rfl, (mask_top_low _ 8#4 1#4).2 (by simp [encode])⟩

theorem andReg (x : Reg) (y : Reg) : Statement (.andReg x y) :=
  ⟨12, by decide, rfl, (mask_top_low _ 8#4 2#4).2 (by simp [encode])⟩

theorem xorReg (x : Reg) (y : Reg) : Statement (.xorReg x y) :=
  ⟨13, by decide, rfl, (mask_top_low _ 8#4 3#4).2 (by simp [encode])⟩

theorem addReg (x : Reg) (y : Reg) : Statement (.addReg x y) :=
  ⟨14, by decide, rfl, (mask_top_low _ 8#4 4#4).2 (by simp [encode])⟩

theorem subReg (x : Reg) (y : Reg) : Statement (.subReg x y) :=
  ⟨15, by decide, rfl, (mask_top_low _ 8#4 5#4).2 (by simp [encode])⟩

theorem shr (x : Reg) (y : Reg) : Statement (.shr x y) :=
  ⟨16, by decide, rfl, (mask_top_low _ 8#4 6#4).2 (by simp [encode])⟩

theorem subnReg (x : Reg) (y : Reg) : Statement (.subnReg x y) :=
  ⟨17, by decide, rfl, (mask_top_low _ 8#4 7#4).2 (by simp [encode])⟩

theorem shl (x : Reg) (y : Reg) : Statement (.shl x y) :=
  ⟨18, by decide, rfl, (mask_top_low _ 8#4 14#4).2 (by simp [encode])⟩

theorem ldI (nnn : Word) : Statement (.ldI nnn) :=
  ⟨19, by decide, rfl, (mask_top _ 10#4).2 (by simp [encode])⟩

theorem jpV0 (nnn : Word) : Statement (.jpV0 nnn) :=
  ⟨20, by decide, rfl, (mask_top _ 11#4).2 (by simp [encode])⟩

theorem rnd (x : Reg) (nn : Byte) : Statement (.rnd x nn) :=
  ⟨21, by decide, rfl, (mask_top _ 12#4).2 (by simp [encode])⟩

theorem drw (x : Reg) (y : Reg) (n : Nat) : Statement (.drw x y n) :=
  ⟨22, by decide, rfl, (mask_top _ 13#4).2 (by simp [encode])⟩

theorem skp (x : Reg) : Statement (.skp x) :=
  ⟨23, by decide, rfl, (mask_top_byte _ 14#4 158#8).2 (by simp [encode])⟩

theorem sknp (x : Reg) : Statement (.sknp x) :=
  ⟨24, by decide, rfl, (mask_top_byte _ 14#4 161#8).2 (by simp [encode])⟩

theorem ldVxDt (x : Reg) : Statement (.ldVxDt x) :=
  ⟨25, by decide, rfl, (mask_top_byte _ 15#4 7#8).2 (by simp [encode])⟩

theorem ldDtVx (x : Reg) : Statement (.ldDtVx x) :=
  ⟨26, by decide, rfl, (mask_top_byte _ 15#4 21#8).2 (by simp [encode])⟩

theorem ldStVx (x : Reg) : Statement (.ldStVx x) :=
  ⟨27, by decide, rfl, (mask_top_byte _ 15#4 24#8).2 (by simp [encode])⟩

theorem ldVxK (x : Reg) : Statement (.ldVxK x) :=
  ⟨28, by decide, rfl, (mask_top_byte _ 15#4 10#8).2 (by simp [encode])⟩

theorem addI (x : Reg) : Statement (.addI x) :=
  ⟨29, by decide, rfl, (mask_top_byte _ 15#4 30#8).2 (by simp [encode])⟩

theorem ldF (x : Reg) : Statement (.ldF x) :=
  ⟨30, by decide, rfl, (mask_top_byte _ 15#4 41#8).2 (by simp [encode])⟩

theorem ldB (x : Reg) : Statement (.ldB x) :=
  ⟨31, by decide, rfl, (mask_top_byte _ 15#4 51#8).2 (by simp [encode])⟩

theorem storeRegs (x : Reg) : Statement (.storeRegs x) :=
  ⟨32, by decide, rfl, (mask_top_byte _ 15#4 85#8).2 (by simp [encode])⟩

theorem loadRegs (x : Reg) : Statement (.loadRegs x) :=
  ⟨33, by decide, rfl, (mask_top_byte _ 15#4 101#8).2 (by simp [encode])⟩

end Sys2Proof.Laws.EncodeMatchesRow
end

