-- ==== Sys2Proof/Laws/Step.lean ====
section
/-! SUPPORT. What a step does, by the transaction it performs and the core's status. -/

namespace Sys2Proof.Machine

/-- With nothing pending the step is a CYCLE. -/
theorem step_of_nil {s : State} (h : s.pending = []) : step s = cycle s := by
  simp [step, nextTransaction, h, perform]

/-- With a transaction pending the step performs the oldest one. -/
theorem step_of_cons {s : State} {t : Transaction} {rest : List Transaction}
    (h : s.pending = t :: rest) : step s = perform t { s with pending := rest } := by
  simp [step, nextTransaction, h]

/-- A CYCLE in RUNNING clears redraw, then fetches, decodes and executes. -/
theorem cycle_of_running {s : State} (h : s.status = .running) :
    cycle s = fetchDecodeExecute (clearRedraw s) := by simp [cycle, h]

/-- A CYCLE in FAULTED does nothing. -/
theorem cycle_of_faulted {s : State} {f : Fault} (h : s.status = .faulted f) :
    cycle s = .next s := by simp [cycle, h]

/-- Everything a pass of fetch, decode and execute can do. -/
theorem fetchDecodeExecute_cases (s : State) :
    (∃ f, fetch s = .error f ∧ fetchDecodeExecute s = .next (takeFault f s)) ∨
    (∃ op e, fetch s = .ok op ∧ decode op = .error e ∧
      fetchDecodeExecute s = .next (invalidOpcode op s)) ∨
    ∃ op i, fetch s = .ok op ∧ decode op = .ok i ∧ fetchDecodeExecute s = exec i s := by
  unfold fetchDecodeExecute
  cases hf : fetch s with
  | error f => exact .inl ⟨f, rfl, rfl⟩
  | ok op =>
    cases hd : decode op with
    | error e => exact .inr (.inl ⟨op, e, rfl, hd, by simp [hd]⟩)
    | ok i => exact .inr (.inr ⟨op, i, rfl, hd, by simp [hd]⟩)

/-- Everything a step can do: a CYCLE or a host transaction. -/
theorem step_cases (s : State) :
    (∃ u : State, (s.pending = [] ∧ u = s ∨ ∃ rest, s.pending = .cycle :: rest ∧
        u = { s with pending := rest }) ∧
      step s = match s.status with
        | .faulted _ => .next u
        | .running => fetchDecodeExecute (clearRedraw u)) ∨
    (∃ rest, s.pending = .tick60 :: rest ∧ step s = .next (tick60 { s with pending := rest })) ∨
    (∃ k p rest, s.pending = .setKey k p :: rest ∧ step s = setKey k p { s with pending := rest }) ∨
    (∃ rest, s.pending = .init :: rest ∧ step s = .next (init { s with pending := rest })) ∨
    ∃ bytes rest, s.pending = .load bytes :: rest ∧
      step s = .next (load bytes { s with pending := rest }).2 := by
  cases h : s.pending with
  | nil => exact .inl ⟨s, .inl ⟨rfl, rfl⟩, by rw [step_of_nil h]; rfl⟩
  | cons t rest =>
    have hs := step_of_cons h
    cases t with
    | cycle => exact .inl ⟨_, .inr ⟨rest, rfl, rfl⟩, by rw [hs]; rfl⟩
    | tick60 => exact .inr (.inl ⟨rest, rfl, hs⟩)
    | setKey k p => exact .inr (.inr (.inl ⟨k, p, rest, rfl, hs⟩))
    | init => exact .inr (.inr (.inr (.inl ⟨rest, rfl, hs⟩)))
    | load bytes => exact .inr (.inr (.inr (.inr ⟨bytes, rest, rfl, hs⟩)))

/-- What LOAD does: nothing when the program is too large, else a reset with the bytes in place. -/
theorem load_cases (bytes : List Byte) (s : State) :
    (0xE00 < bytes.length ∧ load bytes s = (.programTooLarge, s)) ∨
    (bytes.length ≤ 0xE00 ∧
      load bytes s = (.ok, { init s with mem := placeBytes s.font (init s).mem 0x200 bytes })) := by
  by_cases h : bytes.length ≤ 0xE00
  · exact .inr ⟨h, by simp [load, h]⟩
  · exact .inl ⟨by omega, by simp [load, Nat.lt_of_not_le h]⟩

end Sys2Proof.Machine
end

