-- ==== Sys2Proof/Tests/Slice0.lean ====
section
/-! SUPPORT. Tests, with results from the vectors of 95_test_vectors.md (named by their ids) and words written
out from the encodings of R74, and a witness for the hypotheses of every statement that has some. -/

namespace Sys2Proof.Tests

open Sys2Proof.Machine

/-! ## Building small states -/

/-- The state of the vectors: reset, one instruction word at 0x200, and some registers. -/
def start (op : Word) (regs : List (Reg × Byte) := []) : State :=
  regs.foldl (fun s r => writeReg s r.1 r.2)
    { State.reset with mem := placeBytes defaultFont [] 0x200 (wordBytes op) }

/-- The same state with I and bytes at I. -/
def startAt (op : Word) (regs : List (Reg × Byte)) (i : Word) (bytes : List Byte := []) : State :=
  { start op regs with i := i, mem := placeBytes defaultFont (start op regs).mem i.toNat bytes }

/-- The reset state with a word at pc. -/
def placed (pc : Word) (op : Word) : State :=
  { State.reset with pc := pc, mem := placeBytes defaultFont [] pc.toNat (wordBytes op) }

/-- The same state with a key down. -/
def pressed (s : State) (k : Fin 16) : State := { s with key := s.key.set k.val true k.isLt }

/-- The same state with some pixels on. -/
def lit (s : State) (ks : List Nat) : State :=
  { s with disp := ks.foldl (fun d k => cellsWrite offByte d k 1) [] }

/-- The same state with a stack pointer. -/
def stacked (s : State) (sp : Fin 17) : State := { s with sp := sp }

/-- What a question about the next state answers. -/
def after {α : Type} (f : State → α) : Answer → Option α
  | .next t => some (f t)
  | _ => none

/-- Bytes of memory from an address on. -/
def bytesAt (a n : Nat) (s : State) : List Byte := (List.range n).map fun k => memByte s (a + k)

/-! ## WellFormed refuses what has no encoding (R71, R72) -/

theorem test_wf_jp : WellFormed (.jp 0xFFF) = true ∧ WellFormed (.jp 0x1000) = false := by decide
theorem test_wf_call : WellFormed (.call 0xFFF) = true ∧ WellFormed (.call 0x1000) = false := by decide
theorem test_wf_ldI : WellFormed (.ldI 0xFFF) = true ∧ WellFormed (.ldI 0x1000) = false := by decide
theorem test_wf_jpV0 : WellFormed (.jpV0 0xFFF) = true ∧ WellFormed (.jpV0 0xFFFF) = false := by decide
theorem test_wf_drw : WellFormed (.drw 1 2 15) = true ∧ WellFormed (.drw 1 2 16) = false := by decide

/-! ## Decoding words written out bit by bit from R74 -/

theorem test_decode_display :
    decode 0b0000000011100000 = .ok .cls ∧ decode 0b0000101011100000 = .ok .cls ∧
    decode 0b1101000100101111 = .ok (.drw 1 2 15) := by decide
theorem test_decode_flow :
    decode 0b0000000011101110 = .ok .ret ∧ decode 0b0001001000110100 = .ok (.jp 0x234) ∧
    decode 0b0010001000001000 = .ok (.call 0x208) ∧ decode 0b1011001100000001 = .ok (.jpV0 0x301) := by
  decide
theorem test_decode_skip :
    decode 0b0011001100101010 = .ok (.seImm 3 0x2A) ∧ decode 0b0100001111111111 = .ok (.sneImm 3 0xFF) ∧
    decode 0b0101000100100111 = .ok (.seReg 1 2) ∧ decode 0b1001000100101111 = .ok (.sneReg 1 2) ∧
    decode 0b1110010110011110 = .ok (.skp 5) ∧ decode 0b1110111110100001 = .ok (.sknp 15) := by decide
theorem test_decode_immediate :
    decode 0b0110101001011100 = .ok (.ldImm 10 0x5C) ∧ decode 0b0111111111110000 = .ok (.addImm 15 0xF0) ∧
    decode 0b1100001100001111 = .ok (.rnd 3 0x0F) ∧ decode 0b1010001100000000 = .ok (.ldI 0x300) := by
  decide
theorem test_decode_alu :
    decode 0b1000000100100000 = .ok (.ldReg 1 2) ∧ decode 0b1000000100100001 = .ok (.orReg 1 2) ∧
    decode 0b1000000100100010 = .ok (.andReg 1 2) ∧ decode 0b1000000100100011 = .ok (.xorReg 1 2) ∧
    decode 0b1000000100100100 = .ok (.addReg 1 2) := by decide
theorem test_decode_alu_more :
    decode 0b1000000100100101 = .ok (.subReg 1 2) ∧ decode 0b1000000100100110 = .ok (.shr 1 2) ∧
    decode 0b1000000100100111 = .ok (.subnReg 1 2) ∧ decode 0b1000000100101110 = .ok (.shl 1 2) := by
  decide
theorem test_decode_timers_keys :
    decode 0b1111001100000111 = .ok (.ldVxDt 3) ∧ decode 0b1111001100010101 = .ok (.ldDtVx 3) ∧
    decode 0b1111001100011000 = .ok (.ldStVx 3) ∧ decode 0b1111001000001010 = .ok (.ldVxK 2) := by decide
theorem test_decode_index_memory :
    decode 0b1111001000011110 = .ok (.addI 2) ∧ decode 0b1111001000101001 = .ok (.ldF 2) ∧
    decode 0b1111000000110011 = .ok (.ldB 0) ∧ decode 0b1111001101010101 = .ok (.storeRegs 3) ∧
    decode 0b1111111101100101 = .ok (.loadRegs 15) := by decide
theorem test_decode_invalid :
    decode 0x0000 = .error .family0 ∧ decode 0x0123 = .error .family0 ∧ decode 0x00EF = .error .family0 ∧
    decode 0x8008 = .error .family8 ∧ decode 0x800D = .error .family8 ∧ decode 0x800F = .error .family8 ∧
    decode 0xE09F = .error .familyE ∧ decode 0xF00B = .error .familyF ∧ decode 0xFFFF = .error .familyF := by
  decide
theorem test_decode_table_word :
    decodeTableWord 16 0xD123 = some (.drw 1 2 3) ∧ decodeTableWord 16 0xF000 = none := by decide
theorem test_asm :
    asm (.drw 10 0 5) = "DRW VA, V0, 0x5" ∧ asm (.jp 0x20A) = "JP 0x20A" := by decide
/-- The words of program P3. -/
theorem test_assemble :
    assemble [.instr (.ldI 0x20C), .instr (.drw 0 1 2), .db 0xFF, .dw 0x0123] =
      [0xA2, 0x0C, 0xD0, 0x12, 0xFF, 0x01, 0x23] := by decide

/-! ## Display (2.2) -/

/-- D-1. -/
theorem test_cls : after (fun t => (t.disp, t.redraw, t.pc)) (step (lit (start 0x00E0) [0, 2047])) =
    some ([], true, 0x202) := by decide
/-- D-6: clipped at the right edge. -/
theorem test_drw_clip :
    after (fun t => (t.disp, readReg t VF, t.redraw, t.pc))
      (step (startAt 0xD011 [(0, 0x3E)] 0x300 [0xFF])) =
    some ([(62, 1), (63, 1)], 0, true, 0x202) := by decide
/-- D-4 and D-5 in one: the pixel 0 is erased, the pixel 1 set. -/
theorem test_drw_collision :
    after (fun t => (t.disp, readReg t VF)) (step (lit (startAt 0xD011 [] 0x300 [0xC0]) [0])) =
    some ([(1, 1)], 1) := by decide

/-! ## Jump, call, return (2.3) -/

/-- F-1. -/
theorem test_jp : after (·.pc) (step (start 0x1234)) = some 0x234 := by decide
/-- F-12. -/
theorem test_jpV0 : after (·.pc) (step (start 0xBFFF [(0, 0xFF)])) = some 0x10FE := by decide
/-- F-6. -/
theorem test_call : after (fun t => (t.stack[15], t.sp, t.pc)) (step (stacked (placed 0x300 0x2400) 15)) =
    some (0x300, 16, 0x400) := by decide
/-- F-7. -/
theorem test_call_full : after (fun t => (t.status, t.sp, t.pc)) (step (stacked (placed 0x300 0x2400) 16)) =
    some (.faulted .stackOverflow, 16, 0x300) := by decide
/-- F-8. -/
theorem test_ret :
    after (fun t => (t.stack[0], t.sp, t.pc))
      (step { placed 0x208 0x00EE with sp := 1, stack := (Vector.replicate 16 0).set 0 0x202 }) =
    some (0x202, 0, 0x204) := by decide
/-- F-9. -/
theorem test_ret_empty : after (fun t => (t.status, t.pc)) (step (placed 0x208 0x00EE)) =
    some (.faulted .stackUnderflow, 0x208) := by decide

/-! ## Skips (2.4) -/

/-- S-1, S-2. -/
theorem test_seImm : after (·.pc) (step (start 0x332A [(3, 0x2A)])) = some 0x204 ∧
    after (·.pc) (step (start 0x332A [(3, 0x2B)])) = some 0x202 := by decide
/-- S-4, S-5. -/
theorem test_sneImm : after (·.pc) (step (start 0x432A [(3, 0x2A)])) = some 0x202 ∧
    after (·.pc) (step (start 0x43FF)) = some 0x204 := by decide
/-- S-7, S-9. -/
theorem test_seReg : after (·.pc) (step (start 0x5120 [(1, 7), (2, 8)])) = some 0x202 ∧
    after (·.pc) (step (start 0x5127 [(1, 7), (2, 7)])) = some 0x204 := by decide
/-- S-10, S-11. -/
theorem test_sneReg : after (·.pc) (step (start 0x9120 [(1, 7), (2, 8)])) = some 0x204 ∧
    after (·.pc) (step (start 0x9120 [(1, 7), (2, 7)])) = some 0x202 := by decide
/-- S-13, S-14. -/
theorem test_skp : after (·.pc) (step (pressed (start 0xE59E [(5, 0x0A)]) 10)) = some 0x204 ∧
    after (·.pc) (step (start 0xE59E [(5, 0x0A)])) = some 0x202 := by decide
/-- S-17. -/
theorem test_skp_fault : after (fun t => (t.status, t.pc)) (step (start 0xE59E [(5, 0x10)])) =
    some (.faulted (.keyOutOfRange 0x10), 0x200) := by decide
/-- S-15, S-16. -/
theorem test_sknp : after (·.pc) (step (pressed (start 0xE5A1 [(5, 0x0A)]) 10)) = some 0x202 ∧
    after (·.pc) (step (start 0xE5A1 [(5, 0x0A)])) = some 0x204 := by decide
/-- S-18. -/
theorem test_sknp_fault : after (fun t => (t.status, t.pc)) (step (start 0xE5A1 [(5, 0xFF)])) =
    some (.faulted (.keyOutOfRange 0xFF), 0x200) := by decide

/-! ## Register moves and arithmetic (2.5) -/

/-- Vx, VF and pc after a step. -/
def regFlagPc (x : Reg) (s : State) : Option (Byte × Byte × Word) :=
  after (fun t => (readReg t x, readReg t VF, t.pc)) (step s)

/-- A-1. -/
theorem test_ldImm : regFlagPc 10 (start 0x6A5C) = some (0x5C, 0, 0x202) := by decide
/-- A-4. -/
theorem test_addImm : regFlagPc 0 (start 0x7001 [(0, 0xFF), (VF, 0x5A)]) = some (0, 0x5A, 0x202) := by
  decide
/-- A-6. -/
theorem test_ldReg : regFlagPc 0 (start 0x8010 [(1, 0x42)]) = some (0x42, 0, 0x202) := by decide
/-- A-7. -/
theorem test_orReg : regFlagPc 0 (start 0x8011 [(0, 0xF0), (1, 0x0F)]) = some (0xFF, 0, 0x202) := by decide
/-- A-8. -/
theorem test_andReg : regFlagPc 0 (start 0x8012 [(0, 0xF0), (1, 0x3C)]) = some (0x30, 0, 0x202) := by
  decide
/-- A-9. -/
theorem test_xorReg : regFlagPc 0 (start 0x8013 [(0, 0xF0), (1, 0x3C)]) = some (0xCC, 0, 0x202) := by
  decide
/-- A-11. -/
theorem test_addReg : regFlagPc 0 (start 0x8014 [(0, 0xC8), (1, 0x64)]) = some (0x2C, 1, 0x202) := by
  decide
/-- A-15: with x = F the result stays in VF. -/
theorem test_addReg_vf : regFlagPc VF (start 0x8F14 [(VF, 0xFF), (1, 1)]) = some (0, 0, 0x202) := by decide
/-- A-17, which is L1-3. -/
theorem test_subReg : regFlagPc 0 (start 0x8015 [(0, 3), (1, 5)]) = some (0xFE, 0, 0x202) := by decide
/-- A-19: equal operands borrow. -/
theorem test_subReg_equal : regFlagPc 0 (start 0x8015 [(0, 5), (1, 5)]) = some (0, 0, 0x202) := by decide
/-- A-24. -/
theorem test_shr : regFlagPc 1 (start 0x8106 [(1, 0xFF)]) = some (0x7F, 1, 0x202) := by decide
/-- A-25: Vy is not used. -/
theorem test_shr_y : regFlagPc 1 (start 0x8126 [(1, 4), (2, 0xFF)]) = some (2, 0, 0x202) := by decide
/-- A-27. -/
theorem test_subnReg : regFlagPc 0 (start 0x8017 [(0, 0x2C), (1, 0x64)]) = some (0x38, 1, 0x202) := by
  decide
/-- A-29. -/
theorem test_subnReg_borrow : regFlagPc 0 (start 0x8017 [(0, 1)]) = some (0xFF, 0, 0x202) := by decide
/-- A-33. -/
theorem test_shl : regFlagPc 1 (start 0x810E [(1, 0xFF)]) = some (0xFE, 1, 0x202) := by decide
/-- A-34. -/
theorem test_shl_vf : regFlagPc VF (start 0x8F0E [(VF, 0x81)]) = some (2, 2, 0x202) := by decide
/-- A-36: whatever the draw. -/
theorem test_rnd : after (fun t => readReg t 3) (step (start 0xC300 [(3, 9)])) = some 0 := by
  show some (Config.rand8 0 &&& 0) = some 0
  simp

/-! ## Index register and memory (2.6) -/

/-- M-2. -/
theorem test_ldI : after (fun t => (t.i, t.pc)) (step (start 0xAFFF)) = some (0xFFF, 0x202) := by decide
/-- M-6, M-7. -/
theorem test_addI :
    after (fun t => (t.i, readReg t VF)) (step (startAt 0xF01E [(0, 1)] 0xFFF)) = some (0x1000, 1) ∧
    after (fun t => (t.i, readReg t VF)) (step (startAt 0xF01E [(0, 1)] 0xFFFF)) = some (0, 1) := by decide
/-- M-8. -/
theorem test_addI_vf :
    after (fun t => (t.i, readReg t VF)) (step (startAt 0xFF1E [(VF, 5)] 0x100)) = some (0x105, 0) := by
  decide
/-- M-13. -/
theorem test_ldF : after (·.i) (step (start 0xF029 [(0, 0xFF)])) = some 0x4FB := by decide
/-- M-14. -/
theorem test_ldB : after (fun t => (bytesAt 0x300 3 t, t.i)) (step (startAt 0xF033 [(0, 0xFE)] 0x300)) =
    some ([2, 5, 4], 0x300) := by decide
/-- M-20: nothing is written. -/
theorem test_ldB_fault :
    after (fun t => (bytesAt 0xFFE 2 t, t.status)) (step (startAt 0xF033 [(0, 0xFF)] 0xFFE)) =
    some ([0, 0], .faulted (.memOutOfRange 0x1000)) := by decide
/-- M-21. -/
theorem test_storeRegs :
    after (fun t => (bytesAt 0x300 5 t, t.i))
      (step (startAt 0xF355 [(0, 1), (1, 2), (2, 3), (3, 4), (4, 5)] 0x300)) =
    some ([1, 2, 3, 4, 0], 0x304) := by decide
/-- The next word is fetched as the store left it: its first byte as before, its second stored. -/
theorem test_storeRegs_fetch :
    after fetch (exec (.storeRegs 0) (writeReg { placed 0x202 0x6000 with pc := 0x200, i := 0x203 } 0 5)) =
    some (.ok 0x6005) := by decide
/-- M-24. -/
theorem test_storeRegs_fault :
    after (fun t => (t.i, t.pc, t.status)) (step (startAt 0xFF55 [] 0xFF1)) =
    some (0xFF1, 0x200, .faulted (.memOutOfRange 0x1000)) := by decide
/-- M-25. -/
theorem test_loadRegs :
    after (fun t => (readReg t 0, readReg t 1, readReg t 2, readReg t 3, t.i))
      (step (startAt 0xF265 [(3, 7)] 0x300 [2, 5, 4, 9])) = some (2, 5, 4, 7, 0x303) := by decide
/-- M-27. -/
theorem test_loadRegs_fault :
    after (fun t => (readReg t 0, t.i, t.status)) (step (startAt 0xFF65 [(0, 0x5A)] 0xFF1)) =
    some (0x5A, 0xFF1, .faulted (.memOutOfRange 0x1000)) := by decide

/-! ## Timers, keys and the host (2.7, 2.8) -/

/-- T-1. -/
theorem test_ldVxDt : after (fun t => (readReg t 3, t.pc)) (step { start 0xF307 with dt := 0x3C }) =
    some (0x3C, 0x202) := by decide
/-- T-2. -/
theorem test_ldDtVx : after (fun t => (t.dt, t.st)) (step (start 0xF315 [(3, 0x3C)])) = some (0x3C, 0) := by
  decide
/-- T-3. -/
theorem test_ldStVx : after (fun t => (t.dt, t.st)) (step (start 0xF318 [(3, 0x10)])) = some (0, 0x10) := by
  decide
/-- T-8: waiting. -/
theorem test_ldVxK_wait : after (fun t => (readReg t 4, t.pc)) (exec (.ldVxK 4) (placed 0x300 0xF40A)) =
    some (0, 0x300) := by
  rw [show exec (.ldVxK 4) (placed 0x300 0xF40A) = .next (placed 0x300 0xF40A) from rfl]; decide
/-- T-9: the one key that is down. -/
theorem test_ldVxK : after (fun t => (readReg t 4, t.pc))
    (exec (.ldVxK 4) (pressed (placed 0x300 0xF40A) 7)) = some (7, 0x302) := by
  rw [show exec (.ldVxK 4) (pressed (placed 0x300 0xF40A) 7) =
    .next (advance (writeReg { pressed (placed 0x300 0xF40A) 7 with draws := 1 } 4 7)) from rfl]
  decide
/-- T-6, first tick. -/
theorem test_tick60 :
    after (fun t => (t.dt, t.st)) (step { State.reset with dt := 0xFF, st := 1, pending := [.tick60] }) =
    some (0xFE, 0) := by decide
/-- T-12. -/
theorem test_setKey : after (fun t => t.key[5]) (step { State.reset with pending := [.setKey 5 true] }) =
    some true := by decide
/-- L1-8. -/
theorem test_invalid : after (fun t => (t.pc, t.diag, t.status)) (step (start 0xF000)) =
    some (0x202, [⟨0xF000, 0x200⟩], .running) := by decide
/-- C-4. -/
theorem test_fetch_fault : after (fun t => (t.pc, t.status)) (step { State.reset with pc := 0xFFF }) =
    some (0xFFF, .faulted (.memOutOfRange 0x1000)) := by decide
/-- C-10: an odd pc. -/
theorem test_fetch_odd : after (fun t => (readReg t 0, t.pc)) (step (placed 0x201 0x6005)) =
    some (5, 0x203) := by decide
/-- C-9. -/
theorem test_load :
    after (fun t => (bytesAt 0x200 3 t, t.status, t.pc))
      (step { State.reset with status := .faulted .stackOverflow, pc := 9,
                               pending := [.load [0x12, 0x00]] }) =
    some ([0x12, 0, 0], .running, 0x200) := by decide
/-- The default FONT is in place after reset (R36, R51; the bytes are PRESUMED, log 5). -/
theorem test_font : bytesAt 0x4B 6 State.reset = [0xF0, 0x80, 0xF0, 0x80, 0x80, 0] := by decide
/-- The host's placing of a word: the next step runs it, at 0x200. -/
theorem test_withFetchWord :
    after (fun t => (readReg t 10, t.pc)) (step (State.reset.withFetchWord 16 0x6A5C)) =
    some (0x5C, 0x202) := by decide

/-! ## Witnesses: states and operands that meet the hypotheses of each statement that has some, for each
clause, at the boundary of its range -/

/-- DecodeOfEncodeIsTheInstruction, WordsLieHighByteFirst. -/
theorem witness_wellFormed : WellFormed (.jp 0xFFF) = true ∧ WellFormed (.drw 15 0 15) = true := by decide
/-- DecodedInstructionIsWellFormed. -/
theorem witness_decoded : decode 0x1FFF = .ok (.jp 0xFFF) ∧ decode 0xD12F = .ok (.drw 1 2 15) := by decide
/-- IgnoredBitsDoNotMatter. -/
theorem witness_ignoredBits : fieldT 0x5127 = 0x5 ∧ fieldT 0x912F = 0x9 ∧ fieldT 0x0FEE = 0x0 ∧
    fieldT 0xD12F ∈ [0x1#4, 0x2#4, 0x3#4, 0x4#4, 0x6#4, 0x7#4, 0xA#4, 0xB#4, 0xC#4, 0xD#4] ∧
    decode 0xD12F = .ok (.drw 1 2 15) := by decide
/-- StepRunsTheDecodedInstruction, at the last pc a word can be fetched from, with and without an explicit
CYCLE. -/
theorem witness_stepRuns :
    (placed 0xFFE 0x6005).status = .running ∧ (placed 0xFFE 0x6005).pc.toNat ≤ 0xFFE ∧
    decode (wordAtPc (placed 0xFFE 0x6005)) = .ok (.ldImm 0 5) ∧ (placed 0xFFE 0x6005).pending = [] ∧
    ({ placed 0xFFE 0x6005 with pending := [.cycle, .tick60] } : State).pending =
      .cycle :: [.tick60] := by decide
/-- FetchIsBigEndianAndBounded. -/
theorem witness_fetch : (placed 0xFFE 0x6005).pc.toNat ≤ 0xFFE ∧
    Ready { State.reset with pc := 0xFFF } ∧ 0xFFF ≤ (0xFFF : Word).toNat := by decide
/-- UnrecognizedWordIsRecordedAndSkipped. -/
theorem witness_unrecognized : Ready (start 0xF000) ∧ (start 0xF000).pc.toNat ≤ 0xFFE ∧
    decode (wordAtPc (start 0xF000)) = .error .familyF := by decide

/-- A faulted state, with transactions pending. -/
def stuck (q : List Transaction) : State :=
  { State.reset with status := .faulted (.memOutOfRange 0x1000), pending := q }

/-- FaultedCoreIgnoresCycle. -/
theorem witness_faultedIgnores : (stuck []).status = .faulted (.memOutOfRange 0x1000) ∧
    (stuck []).pending = [] ∧ (stuck [.cycle]).pending = .cycle :: [] := by decide
/-- FaultedIsLeftOnlyByInitOrLoad, for a step that leaves FAULTED and for one that does not. -/
theorem witness_faultedIsLeft :
    after (·.status) (step (stuck [.init])) = some .running ∧
    after (·.status) (step (stuck [.tick60])) = some (.faulted (.memOutOfRange 0x1000)) := by decide
/-- InstructionsCompleteOrFaultAsTabulated and PcFollowsTheTable: the last operands without a fault. -/
theorem witness_completes :
    faultRaised (stacked (start 0) 15) (.call 0x300) = none ∧
    faultRaised (stacked (start 0) 1) .ret = none ∧
    faultRaised (start 0 [(3, 15)]) (.skp 3) = none ∧ faultRaised (start 0 [(3, 15)]) (.sknp 3) = none ∧
    faultRaised (startAt 0 [] 0xFFF) (.drw 0 0 1) = none ∧
    faultRaised (startAt 0 [] 0xFFFF) (.drw 0 0 0) = none ∧
    faultRaised (startAt 0 [] 0xFFD) (.ldB 0) = none ∧
    faultRaised (startAt 0 [] 0xFF0) (.storeRegs 15) = none ∧
    faultRaised (startAt 0 [] 0xFF0) (.loadRegs 15) = none := by decide
/-- InstructionsCompleteOrFaultAsTabulated: the first operands with one. -/
theorem witness_faults :
    faultRaised (stacked (start 0) 16) (.call 0x300) = some .stackOverflow ∧
    faultRaised (start 0) .ret = some .stackUnderflow ∧
    faultRaised (start 0 [(3, 16)]) (.skp 3) = some (.keyOutOfRange 16) ∧
    faultRaised (start 0 [(3, 16)]) (.sknp 3) = some (.keyOutOfRange 16) ∧
    faultRaised (startAt 0 [] 0xFFF) (.drw 0 0 2) = some (.memOutOfRange 0x1000) ∧
    faultRaised (startAt 0 [] 0xFFE) (.ldB 0) = some (.memOutOfRange 0x1000) ∧
    faultRaised (startAt 0 [] 0xFF1) (.storeRegs 15) = some (.memOutOfRange 0x1000) ∧
    faultRaised (startAt 0 [] 0x2000) (.loadRegs 0) = some (.memOutOfRange 0x2000) := by decide
/-- StepKeepsInvariant, with something listed in memory and on the display. -/
theorem witness_invariant : StateInv (lit (startAt 0xD011 [] 0x300 [0xFF]) [0, 2047]) ∧
    after (·.pc) (step (lit (startAt 0xD011 [] 0x300 [0xFF]) [0, 2047])) = some 0x202 := by decide
/-- InitResetsEveryPieceOfState, TickDecrementsBothTimers, SetKeySetsOneKey (an index that exists and one
that does not). -/
theorem witness_host :
    (stuck [.init, .cycle]).pending = .init :: [.cycle] ∧ (stuck [.tick60]).pending = .tick60 :: [] ∧
    (stuck [.setKey 15 true]).pending = .setKey 15 true :: [] ∧ 15 < 16 ∧
    (stuck [.setKey 16 true]).pending = .setKey 16 true :: [] ∧ 16 ≤ 16 := by decide
/-- LoadResetsAndPlacesTheProgram: the largest program, the smallest that is too large, and a pending
LOAD. -/
theorem witness_load :
    (List.replicate 0xE00 (0xAA : Byte)).length ≤ 0xE00 ∧ 2 ≤ (List.replicate 0xE00 (0xAA : Byte)).length ∧
    0xE00 < (List.replicate 0xE01 (0xAA : Byte)).length ∧
    (stuck [.load [0x12, 0x00]]).pending = .load [0x12, 0x00] :: [] := by
  refine ⟨?_, ?_, ?_, rfl⟩ <;> rw [List.length_replicate] <;> decide
/-- RedrawTellsThatADisplayInstructionCompleted: a step that sets redraw and one that clears it. -/
theorem witness_redraw : Ready (start 0x00E0) ∧ after (·.redraw) (step (start 0x00E0)) = some true ∧
    Ready { start 0x6000 with redraw := true } ∧
    after (·.redraw) (step { start 0x6000 with redraw := true }) = some false := by decide
/-- RegistersAreWrittenOnlyAsTabulated: Fx65 leaves a register above x. -/
theorem witness_registers : writesReg (.loadRegs 2) 3 = false ∧ writesReg (.addReg 0 1) 2 = false ∧
    after (·.pc) (exec (.loadRegs 2) (startAt 0 [] 0x300)) = some 0x202 := by decide
/-- OtherStateChangesOnlyAsTabulated and OutputsAreReadByNoInstruction: an instruction with none of the
effects completes. -/
theorem witness_effects :
    (effects (.skp 0)).index = false ∧ (effects (.skp 0)).delay = false ∧
    (effects (.skp 0)).sound = false ∧ (effects (.skp 0)).stack = false ∧
    (effects (.skp 0)).display = false ∧ (effects (.skp 0)).draw = false ∧
    (effects (.skp 0)).stored = 0 ∧ after (·.pc) (exec (.skp 0) (start 0)) = some 0x202 := by decide
/-- StoresChangeOnlyTheirBytes: the byte after and the byte before what is stored. -/
theorem witness_stores : Memory.wf defaultFont (startAt 0xF355 [] 0x300).mem ∧
    after (·.pc) (exec (.storeRegs 3) (startAt 0xF355 [] 0x300)) = some 0x202 ∧
    ¬ (baseAddr (startAt 0xF355 [] 0x300) ≤ 0x304 ∧
      0x304 < baseAddr (startAt 0xF355 [] 0x300) + (effects (.storeRegs 3)).stored) ∧
    ¬ (baseAddr (startAt 0xF355 [] 0x300) ≤ 0x2FF ∧
      0x2FF < baseAddr (startAt 0xF355 [] 0x300) + (effects (.storeRegs 3)).stored) := by decide
/-- DrawTogglesTheSpritesPixels: the last row that fits, and the first that does not. -/
theorem witness_draw :
    Display.wf (lit (startAt 0 [] 0xFFF) [0]).disp ∧ Display.binary (lit (startAt 0 [] 0xFFF) [0]).disp ∧
    baseAddr (lit (startAt 0 [] 0xFFF) [0]) + 1 ≤ 0x1000 ∧
    0x1000 < baseAddr (lit (startAt 0 [] 0xFFF) [0]) + 2 := by decide
/-- CallPushesItsAddress, ReturnPopsTheAddress and ReturnGoesAfterTheCall. -/
theorem witness_stack :
    (stacked (start 0) 15).sp.val < 16 ∧ (stacked (start 0) 16).sp.val = 16 ∧
    0 < (stacked (start 0) 1).sp.val ∧ (start 0).sp.val = 0 ∧
    after (·.sp) (exec (.call 0x300) (stacked (start 0) 15)) = some 16 := by decide
/-- SkipsReadingAKey. -/
theorem witness_keys : (readReg (start 0 [(3, 15)]) 3).toNat < 16 ∧
    16 ≤ (readReg (start 0 [(3, 16)]) 3).toNat := by decide
/-- AddSetsTheCarry, SubtractionsSetTheStrictComparison and ShiftsSetTheBitShiftedOut, whose clauses are
for x other than F, and for registers other than x and F. -/
theorem witness_alu : (0 : Reg) ≠ VF ∧ (14 : Reg) ≠ 0 ∧ (14 : Reg) ≠ VF := by decide
/-- DecimalDigitsAreStored. -/
theorem witness_decimal : Memory.wf defaultFont (startAt 0 [] 0xFFD).mem ∧ baseAddr (startAt 0 [] 0xFFD) + 2 < 0x1000 ∧
    0x1000 ≤ baseAddr (startAt 0 [] 0xFFE) + 2 := by decide
/-- RegistersAreStored, RegistersAreLoaded and StoreThenLoadReproducesTheRegisters. -/
theorem witness_blocks : Memory.wf defaultFont (startAt 0 [] 0xFF0).mem ∧
    baseAddr (startAt 0 [] 0xFF0) + (15 : Reg).val < 0x1000 ∧
    0x1000 ≤ baseAddr (startAt 0 [] 0xFF1) + (15 : Reg).val ∧
    after (·.i) (exec (.storeRegs 15) (startAt 0 [] 0xFF0)) = some 0x1000 := by decide
/-- StoreIsSeenByTheNextFetch, at the last word: Fx55 over its second byte only, Fx33 over both. -/
theorem witness_seen :
    Memory.wf defaultFont (placed 0xFFC 0xF055).mem ∧ ((placed 0xFFC 0xF055).pc + 2).toNat ≤ 0xFFE ∧
    baseAddr { placed 0xFFC 0xF055 with i := 0xFFF } + (0 : Reg).val < 0x1000 ∧
    baseAddr { placed 0xFFC 0xF033 with i := 0xFFD } + 2 < 0x1000 := by decide
/-- StepKeepsTheParameterFont, with a FONT that is not the default. -/
theorem witness_font :
    after (fun t => (t.font[79], memByte t 79))
      (step { State.reset with font := Vector.replicate 80 7, pending := [.init] }) = some (7, 7) := by
  decide
/-- WaitTakesAKeyThatIsDown: no key, a key, and a set of two. -/
theorem witness_wait : (∀ k : Fin 16, (start 0).key[k.val]'k.isLt = false) ∧
    (∃ k : Fin 16, (pressed (start 0) 15).key[k.val]'k.isLt = true) ∧
    (9 : Fin 16) ∈ [(3 : Fin 16), 9] ∧ pickKey 1 [(3 : Fin 16), 9] = some 9 := by decide

end Sys2Proof.Tests
end

section
/-! SUPPORT. The decoder's fields as arithmetic on the word (R71, R72), and the statement they settle.
The field itself is the form other proofs simplify to, so these are cited by name and are not simp lemmas. -/

namespace Sys2Proof

theorem fieldT_toNat (op : Word) : (fieldT op).toNat = op.toNat / 4096 := by
  have hword : op.toNat < 16 * 4096 := op.isLt
  calc (fieldT op).toNat = op.toNat / 4096 % 16 := by
        simp [fieldT, BitVec.extractLsb'_toNat, Nat.shiftRight_eq_div_pow]
    _ = op.toNat / 4096 := Nat.mod_eq_of_lt (Nat.div_lt_of_lt_mul (by omega))

theorem fieldX_val (op : Word) : (fieldX op).val = op.toNat / 256 % 16 := by
  simp [fieldX, Nat.shiftRight_eq_div_pow]

theorem fieldY_val (op : Word) : (fieldY op).val = op.toNat / 16 % 16 := by
  simp [fieldY, Nat.shiftRight_eq_div_pow]

theorem fieldN_toNat (op : Word) : (fieldN op).toNat = op.toNat % 16 := by
  simp [fieldN, BitVec.extractLsb'_toNat]

theorem fieldNN_toNat (op : Word) : (fieldNN op).toNat = op.toNat % 256 := by
  simp [fieldNN, BitVec.extractLsb'_toNat]

/-- Zero-extending the twelve address bits to a word keeps their value (R72). -/
theorem fieldNNN_toNat (op : Word) : (fieldNNN op).toNat = op.toNat % 4096 := by
  have hfits : op.toNat % 4096 < 2 ^ 16 := (Nat.mod_lt _ (by decide)).trans (by decide)
  simpa [fieldNNN, BitVec.extractLsb'_toNat] using Nat.mod_eq_of_lt hfits

/-- Settles O3: each field is a shift and a truncation of the word, that is a quotient and a remainder
by powers of two. -/
theorem fieldsAreTheStatedBits : Obligations.FieldsAreTheStatedBits := fun op =>
  ⟨fieldT_toNat op, fieldX_val op, fieldY_val op, fieldN_toNat op, fieldNN_toNat op, fieldNNN_toNat op⟩

end Sys2Proof
end

section
/-! SUPPORT. 1nnn: which words are it, what it does (R74, R141), and the statement they settle. -/

namespace Sys2Proof.Machine

/-- Mask F000 keeps the top nibble; nibble 1 leads the decoder to 1nnn, and no other nibble does. -/
theorem encodedBy_jp : EncodedBy 0xF000 0x1000 (fun w => .jp (fieldNNN w)) := fun op =>
  calc op &&& 0xF000 = 0x1000
    _ ↔ fieldT op = 0x1#4 := mask_top op 0x1#4
    _ ↔ decode op = .ok (.jp (fieldNNN op)) := ⟨fun h => decode_of_fieldT h, selectedBy_of_decode⟩

theorem exec_jp (nnn : Word) (s : State) : exec (.jp nnn) s = .next { s with pc := nnn } := rfl

/-- Settles O31: the top nibble alone selects 1nnn, and its meaning is one write of pc. -/
theorem jumpGoesToItsTarget : Obligations.JumpGoesToItsTarget := ⟨encodedBy_jp, exec_jp⟩

end Sys2Proof.Machine
end

section
/-! SUPPORT. Rows of R74 that the top nibble alone selects: mask F000. -/

namespace Sys2Proof.Machine

/-- When the top nibble `t` leads the decoder to an instruction, and that instruction's row is selected
by `t` alone, mask F000 encodes it: no other word decodes to it (R73, R74). -/
theorem encodedBy_top (t : BitVec 4) {build : Word → Instr}
    (hdecode : ∀ {op}, fieldT op = t → decode op = .ok (build op))
    (hselect : ∀ {op}, selectedBy op (build op) → fieldT op = t) :
    EncodedBy 0xF000 (t ++ 0#12) build := fun op =>
  calc op &&& 0xF000 = t ++ 0#12
    _ ↔ fieldT op = t := mask_top op t
    _ ↔ decode op = .ok (build op) := ⟨hdecode, fun h => hselect (selectedBy_of_decode h)⟩

end Sys2Proof.Machine
end

section
/-! SUPPORT. The skips that compare registers and immediates: which words they are, what they do (R74,
R150-R153), and the statements they settle. -/

namespace Sys2Proof.Machine

theorem encodedBy_seImm : EncodedBy 0xF000 0x3000 (fun w => .seImm (fieldX w) (fieldNN w)) :=
  encodedBy_top 0x3#4 decode_of_fieldT id

theorem encodedBy_sneImm : EncodedBy 0xF000 0x4000 (fun w => .sneImm (fieldX w) (fieldNN w)) :=
  encodedBy_top 0x4#4 decode_of_fieldT id

theorem encodedBy_seReg : EncodedBy 0xF000 0x5000 (fun w => .seReg (fieldX w) (fieldY w)) :=
  encodedBy_top 0x5#4 decode_of_fieldT id

/-- A skip is one write of pc, whatever Boolean test decides its condition (R109, R150). -/
theorem skipIf_of_iff (s : State) {c : Bool} {p : Prop} [Decidable p] (h : c = true ↔ p) :
    skipIf s c = { s with pc := if p then s.pc + 4 else s.pc + 2 } := by
  cases c with
  | true => rw [if_pos (h.mp rfl)]; rfl
  | false => rw [if_neg (mt h.mpr Bool.false_ne_true)]; rfl

theorem exec_seImm (x : Reg) (nn : Byte) (s : State) : exec (.seImm x nn) s =
    .next { s with pc := if readReg s x = nn then s.pc + 4 else s.pc + 2 } :=
  congrArg Host.Outcome.next (skipIf_of_iff s beq_iff_eq)

theorem exec_sneImm (x : Reg) (nn : Byte) (s : State) : exec (.sneImm x nn) s =
    .next { s with pc := if readReg s x ≠ nn then s.pc + 4 else s.pc + 2 } :=
  congrArg Host.Outcome.next (skipIf_of_iff s bne_iff_ne)

theorem exec_seReg (x y : Reg) (s : State) : exec (.seReg x y) s =
    .next { s with pc := if readReg s x = readReg s y then s.pc + 4 else s.pc + 2 } :=
  congrArg Host.Outcome.next (skipIf_of_iff s beq_iff_eq)

/-- Settles O36: the top nibbles 3 and 4 select the two forms, and the meaning of each is one write of
pc, decided by comparing Vx with nn. -/
theorem skipsComparingWithAnImmediate : Obligations.SkipsComparingWithAnImmediate :=
  ⟨encodedBy_seImm, encodedBy_sneImm, fun x nn s => ⟨exec_seImm x nn s, exec_sneImm x nn s⟩⟩

/-- Settles O37: the top nibble 5 alone selects 5xy0, so its low nibble plays no part, and its meaning is
one write of pc, decided by comparing Vx with Vy. -/
theorem skipIfRegistersAreEqual : Obligations.SkipIfRegistersAreEqual :=
  ⟨encodedBy_seReg, exec_seReg⟩

end Sys2Proof.Machine
end

section
/-! SUPPORT. Rows of R74 in family 0x8, selected by the top and the low nibble: mask F00F. -/

namespace Sys2Proof.Machine

/-- When the low nibble `n` leads the decoder of family 0x8 to an instruction, and that instruction's
row is selected by the nibbles 8 and `n`, mask F00F encodes it: no other word decodes to it (R73, R74). -/
theorem encodedBy_family8 (n : BitVec 4) {build : Word → Instr}
    (hdecode : ∀ {op}, fieldN op = n → decodeFamily8 op = .ok (build op))
    (hselect : ∀ {op}, selectedBy op (build op) → fieldT op = 0x8#4 ∧ fieldN op = n) :
    EncodedBy 0xF00F (0x8#4 ++ (0#8 ++ n)) build := fun op =>
  calc op &&& 0xF00F = 0x8#4 ++ (0#8 ++ n)
    _ ↔ fieldT op = 0x8#4 ∧ fieldN op = n := mask_top_low op 0x8#4 n
    _ ↔ decode op = .ok (build op) :=
      ⟨fun ⟨htop, hlow⟩ => (decode_of_fieldT htop).trans (hdecode hlow),
        fun h => hselect (selectedBy_of_decode h)⟩

end Sys2Proof.Machine
end

section
/-! SUPPORT. Instructions whose whole meaning is one write of Vx: what such an instruction does and
leaves unchanged (R160), which words the loads, the immediate add, the move and the bitwise operations
are (R74), what they write (R161-R166), and the statements they settle. -/

namespace Sys2Proof.Machine

theorem toNat_toByte (v : Nat) : (toByte v).toNat = v % 256 := BitVec.toNat_ofNat v 8

/-- An instruction that writes one register and goes on changes that register and pc, and nothing else:
no flag. -/
theorem exec_changes_only_reg_pc {i : Instr} {s : State} {x : Reg} {b : Byte}
    (hexec : exec i s = .next (advance (writeReg s x b))) :
    ∃ t, exec i s = .next t ∧ readReg t x = b ∧ (∀ r, r ≠ x → readReg t r = readReg s r) ∧
      t = { s with v := t.v, pc := s.pc + 2 } :=
  ⟨advance (writeReg s x b), hexec, readReg_writeReg_same s x b,
    fun _ hr => readReg_writeReg_ne s b hr, rfl⟩

theorem encodedBy_ldImm : EncodedBy 0xF000 0x6000 (fun w => .ldImm (fieldX w) (fieldNN w)) :=
  encodedBy_top 0x6#4 decode_of_fieldT id

theorem encodedBy_addImm : EncodedBy 0xF000 0x7000 (fun w => .addImm (fieldX w) (fieldNN w)) :=
  encodedBy_top 0x7#4 decode_of_fieldT id

theorem encodedBy_ldReg : EncodedBy 0xF00F 0x8000 (fun w => .ldReg (fieldX w) (fieldY w)) :=
  encodedBy_family8 0x0#4 (fun h => by simp [decodeFamily8, h]) id

theorem encodedBy_orReg : EncodedBy 0xF00F 0x8001 (fun w => .orReg (fieldX w) (fieldY w)) :=
  encodedBy_family8 0x1#4 (fun h => by simp [decodeFamily8, h]) id

theorem encodedBy_andReg : EncodedBy 0xF00F 0x8002 (fun w => .andReg (fieldX w) (fieldY w)) :=
  encodedBy_family8 0x2#4 (fun h => by simp [decodeFamily8, h]) id

theorem encodedBy_xorReg : EncodedBy 0xF00F 0x8003 (fun w => .xorReg (fieldX w) (fieldY w)) :=
  encodedBy_family8 0x3#4 (fun h => by simp [decodeFamily8, h]) id

theorem exec_ldImm (x : Reg) (nn : Byte) (s : State) :
    exec (.ldImm x nn) s = .next (advance (writeReg s x nn)) := rfl

theorem exec_addImm (x : Reg) (nn : Byte) (s : State) : exec (.addImm x nn) s =
    .next (advance (writeReg s x (toByte ((readReg s x).toNat + nn.toNat)))) := rfl

theorem exec_ldReg (x y : Reg) (s : State) :
    exec (.ldReg x y) s = .next (advance (writeReg s x (readReg s y))) := rfl

theorem exec_orReg (x y : Reg) (s : State) :
    exec (.orReg x y) s = .next (advance (writeReg s x (readReg s x ||| readReg s y))) := rfl

theorem exec_andReg (x y : Reg) (s : State) :
    exec (.andReg x y) s = .next (advance (writeReg s x (readReg s x &&& readReg s y))) := rfl

theorem exec_xorReg (x y : Reg) (s : State) :
    exec (.xorReg x y) s = .next (advance (writeReg s x (readReg s x ^^^ readReg s y))) := rfl

/-- Settles O40: the top nibbles 6 and 7 select the two forms, and the meaning of each is one write of
Vx; the sum is reduced modulo 256 by being made a byte. -/
theorem immediateLoadAndAdd : Obligations.ImmediateLoadAndAdd := by
  refine ⟨encodedBy_ldImm, encodedBy_addImm, fun x nn s =>
    ⟨exec_changes_only_reg_pc (exec_ldImm x nn s), ?_⟩⟩
  obtain ⟨t, hexec, hsum, hframe⟩ := exec_changes_only_reg_pc (exec_addImm x nn s)
  exact ⟨t, hexec, hsum ▸ toNat_toByte _, hframe⟩

/-- Settles O41: the low nibbles 0 to 3 of family 8 select the four forms, and the meaning of each is one
write of Vx, from operands read before it. -/
theorem moveAndBitwiseOperations : Obligations.MoveAndBitwiseOperations :=
  ⟨encodedBy_ldReg, encodedBy_orReg, encodedBy_andReg, encodedBy_xorReg, fun x y s =>
    ⟨exec_changes_only_reg_pc (exec_ldReg x y s), exec_changes_only_reg_pc (exec_orReg x y s),
      exec_changes_only_reg_pc (exec_andReg x y s), exec_changes_only_reg_pc (exec_xorReg x y s)⟩⟩

end Sys2Proof.Machine
end

section
/-! SUPPORT. Rows of R74 selected by the top nibble and the low byte: mask F0FF. -/

namespace Sys2Proof.Machine

/-- When the top nibble `t` and the low byte `nn` lead the decoder to an instruction, and that
instruction's row is selected by `t` and `nn`, mask F0FF encodes it: no other word decodes to it (R73,
R74). -/
theorem encodedBy_topByte (t : BitVec 4) (nn : Byte) {build : Word → Instr}
    (hdecode : ∀ {op}, fieldT op = t → fieldNN op = nn → decode op = .ok (build op))
    (hselect : ∀ {op}, selectedBy op (build op) → fieldT op = t ∧ fieldNN op = nn) :
    EncodedBy 0xF0FF (t ++ (0#4 ++ nn)) build := fun op =>
  calc op &&& 0xF0FF = t ++ (0#4 ++ nn)
    _ ↔ fieldT op = t ∧ fieldNN op = nn := mask_top_byte op t nn
    _ ↔ decode op = .ok (build op) :=
      ⟨fun ⟨htop, hlow⟩ => hdecode htop hlow, fun h => hselect (selectedBy_of_decode h)⟩

/-- The top nibble F leads the decoder to the secondary dispatch of family 0xF (R73). -/
theorem decode_of_familyF {op : Word} (h : fieldT op = 0xF#4) : decode op = decodeFamilyF op :=
  decode_of_fieldT h

end Sys2Proof.Machine
end

section
/-! SUPPORT. The loads of I: which words they are (R74), what they do (R180, R182), and the statement they
settle. -/

namespace Sys2Proof.Machine

theorem toNat_toWord (v : Nat) : (toWord v).toNat = v % 65536 := BitVec.toNat_ofNat v 16

/-- Five times a byte is at most 1275, so a glyph's address is exact: it never wraps (R182). -/
theorem glyphAddr_toNat (vx : Byte) : (glyphAddr vx).toNat = vx.toNat * 5 := by
  have hfits : vx.toNat * 5 < 65536 := by have := vx.isLt; omega
  exact (toNat_toWord _).trans (Nat.mod_eq_of_lt hfits)

theorem encodedBy_ldI : EncodedBy 0xF000 0xA000 (fun w => .ldI (fieldNNN w)) :=
  encodedBy_top 0xA#4 decode_of_fieldT id

theorem encodedBy_ldF : EncodedBy 0xF0FF 0xF029 (fun w => .ldF (fieldX w)) :=
  encodedBy_topByte 0xF#4 0x29#8
    (fun htop hlow => (decode_of_familyF htop).trans (by simp [decodeFamilyF, hlow])) id

theorem exec_ldI (nnn : Word) (s : State) :
    exec (.ldI nnn) s = .next { s with i := nnn, pc := s.pc + 2 } := rfl

theorem exec_ldF (x : Reg) (s : State) :
    exec (.ldF x) s = .next { s with i := glyphAddr (readReg s x), pc := s.pc + 2 } := rfl

/-- Settles O46: the top nibble A alone selects Annn, and the nibble F with the low byte 29 selects Fx29;
the meaning of each is one write of I and the step of pc, and five times Vx fits in I. -/
theorem indexLoads : Obligations.IndexLoads :=
  ⟨encodedBy_ldI, encodedBy_ldF, exec_ldI, fun x s =>
    ⟨_, exec_ldF x s, glyphAddr_toNat (readReg s x), rfl⟩⟩

end Sys2Proof.Machine
end

section
/-! SUPPORT. The moves between Vx and the timers: which words they are (R74), what they do (R190-R192),
and the statement they settle. -/

namespace Sys2Proof.Machine

/-- When the low byte `nn` leads the decoder of family 0xF to an instruction, and that instruction's row
is selected by the nibble F and `nn`, mask F0FF encodes it (R73, R74). -/
theorem encodedBy_familyF (nn : Byte) {build : Word → Instr}
    (hdecode : ∀ {op}, fieldNN op = nn → decodeFamilyF op = .ok (build op))
    (hselect : ∀ {op}, selectedBy op (build op) → fieldT op = 0xF#4 ∧ fieldNN op = nn) :
    EncodedBy 0xF0FF (0xF#4 ++ (0#4 ++ nn)) build :=
  encodedBy_topByte 0xF#4 nn (fun htop hlow => (decode_of_familyF htop).trans (hdecode hlow)) hselect

theorem encodedBy_ldVxDt : EncodedBy 0xF0FF 0xF007 (fun w => .ldVxDt (fieldX w)) :=
  encodedBy_familyF 0x07#8 (fun hlow => by simp [decodeFamilyF, hlow]) id

theorem encodedBy_ldDtVx : EncodedBy 0xF0FF 0xF015 (fun w => .ldDtVx (fieldX w)) :=
  encodedBy_familyF 0x15#8 (fun hlow => by simp [decodeFamilyF, hlow]) id

theorem encodedBy_ldStVx : EncodedBy 0xF0FF 0xF018 (fun w => .ldStVx (fieldX w)) :=
  encodedBy_familyF 0x18#8 (fun hlow => by simp [decodeFamilyF, hlow]) id

theorem exec_ldVxDt (x : Reg) (s : State) :
    exec (.ldVxDt x) s = .next (advance (writeReg s x s.dt)) := rfl

theorem exec_ldDtVx (x : Reg) (s : State) :
    exec (.ldDtVx x) s = .next { s with dt := readReg s x, pc := s.pc + 2 } := rfl

theorem exec_ldStVx (x : Reg) (s : State) :
    exec (.ldStVx x) s = .next { s with st := readReg s x, pc := s.pc + 2 } := rfl

/-- Settles O53: the nibble F with the low bytes 07, 15 and 18 selects the three forms; Fx07 is one write
of Vx, and Fx15 and Fx18 are one write of a timer, each with the step of pc. -/
theorem timerMoves : Obligations.TimerMoves :=
  ⟨encodedBy_ldVxDt, encodedBy_ldDtVx, encodedBy_ldStVx, fun x s =>
    ⟨exec_changes_only_reg_pc (exec_ldVxDt x s), exec_ldDtVx x s, exec_ldStVx x s⟩⟩

end Sys2Proof.Machine
end

section
/-! SUPPORT. Encoding and decoding are inverse on well-formed instructions (R74, R75), and the statements
they settle. -/

namespace Sys2Proof

/-- Every well-formed instruction is decoded from its word again: the fields of the encoded word are the
operands, and its top nibble with the secondary nibble or byte leads the decoder to the row. Only the
12-bit address and the 4-bit height need the bound of `WellFormed`. -/
theorem decode_encode {i : Instr} (h : WellFormed i = true) : decode (encode i) = .ok i := by
  cases i with
  | jp nnn | call nnn | ldI nnn | jpV0 nnn => simp [encode, decode, fieldNNN_encNNN _ h]
  | drw x y n =>
    have hn : n < 16 := by simpa [WellFormed, fitsN] using h
    simp [encode, decode, Nat.mod_eq_of_lt hn]
  | cls | ret => simp [encode, decode, decodeFamily0]
  | seImm x nn | sneImm x nn | ldImm x nn | addImm x nn | rnd x nn => simp [encode, decode]
  | seReg x y | sneReg x y => simp [encode, decode]
  | ldReg x y | orReg x y | andReg x y | xorReg x y | addReg x y | subReg x y | shr x y | subnReg x y
  | shl x y => simp [encode, decode, decodeFamily8]
  | skp x | sknp x => simp [encode, decode, decodeFamilyE]
  | ldVxDt x | ldDtVx x | ldStVx x | ldVxK x | addI x | ldF x | ldB x | storeRegs x | loadRegs x =>
    simp [encode, decode, decodeFamilyF]

/-- Settles O1: the fields of an encoded word are the operands, format by format. -/
theorem decodeOfEncodeIsTheInstruction : Obligations.DecodeOfEncodeIsTheInstruction :=
  fun _ => decode_encode

/-- Settles O2: only an address and a sprite height could fail to fit, and the top nibble that selects
such an instruction makes the operand a field of the word. -/
theorem decodedInstructionIsWellFormed : Obligations.DecodedInstructionIsWellFormed := by
  intro op i h
  have hsel := selectedBy_of_decode h
  cases i with
  | jp nnn | call nnn | ldI nnn | jpV0 nnn =>
    cases (decode_of_fieldT hsel).symm.trans h
    exact fitsNNN_fieldNNN op
  | drw x y n =>
    cases (decode_of_fieldT hsel).symm.trans h
    exact fitsN_fieldN op
  | _ => rfl

end Sys2Proof
end

section
/-! SUPPORT. The remaining rows of R74, the opcode map as a whole, and the statements it settles. -/

namespace Sys2Proof.Machine

/-! ## Rows by the top nibble -/

theorem encodedBy_call : EncodedBy 0xF000 0x2000 (fun w => .call (fieldNNN w)) :=
  encodedBy_top 0x2#4 decode_of_fieldT id

theorem encodedBy_sneReg : EncodedBy 0xF000 0x9000 (fun w => .sneReg (fieldX w) (fieldY w)) :=
  encodedBy_top 0x9#4 decode_of_fieldT id

theorem encodedBy_jpV0 : EncodedBy 0xF000 0xB000 (fun w => .jpV0 (fieldNNN w)) :=
  encodedBy_top 0xB#4 decode_of_fieldT id

theorem encodedBy_rnd : EncodedBy 0xF000 0xC000 (fun w => .rnd (fieldX w) (fieldNN w)) :=
  encodedBy_top 0xC#4 decode_of_fieldT id

theorem encodedBy_drw :
    EncodedBy 0xF000 0xD000 (fun w => .drw (fieldX w) (fieldY w) (fieldN w).toNat) :=
  encodedBy_top 0xD#4 decode_of_fieldT id

/-! ## Rows of family 0x8 -/

theorem encodedBy_addReg : EncodedBy 0xF00F 0x8004 (fun w => .addReg (fieldX w) (fieldY w)) :=
  encodedBy_family8 0x4#4 (fun h => by simp [decodeFamily8, h]) id

theorem encodedBy_subReg : EncodedBy 0xF00F 0x8005 (fun w => .subReg (fieldX w) (fieldY w)) :=
  encodedBy_family8 0x5#4 (fun h => by simp [decodeFamily8, h]) id

theorem encodedBy_shr : EncodedBy 0xF00F 0x8006 (fun w => .shr (fieldX w) (fieldY w)) :=
  encodedBy_family8 0x6#4 (fun h => by simp [decodeFamily8, h]) id

theorem encodedBy_subnReg : EncodedBy 0xF00F 0x8007 (fun w => .subnReg (fieldX w) (fieldY w)) :=
  encodedBy_family8 0x7#4 (fun h => by simp [decodeFamily8, h]) id

theorem encodedBy_shl : EncodedBy 0xF00F 0x800E (fun w => .shl (fieldX w) (fieldY w)) :=
  encodedBy_family8 0xE#4 (fun h => by simp [decodeFamily8, h]) id

/-! ## Rows of families 0x0, 0xE and 0xF -/

/-- The top nibble 0 leads the decoder to the secondary dispatch of family 0x0 (R73). -/
theorem decode_of_family0 {op : Word} (h : fieldT op = 0x0#4) : decode op = decodeFamily0 op :=
  decode_of_fieldT h

/-- The top nibble E leads the decoder to the secondary dispatch of family 0xE (R73). -/
theorem decode_of_familyE {op : Word} (h : fieldT op = 0xE#4) : decode op = decodeFamilyE op :=
  decode_of_fieldT h

theorem encodedBy_cls : EncodedBy 0xF0FF 0x00E0 (fun _ => .cls) :=
  encodedBy_topByte 0x0#4 0xE0#8
    (fun htop hlow => (decode_of_family0 htop).trans (by simp [decodeFamily0, hlow])) id

theorem encodedBy_ret : EncodedBy 0xF0FF 0x00EE (fun _ => .ret) :=
  encodedBy_topByte 0x0#4 0xEE#8
    (fun htop hlow => (decode_of_family0 htop).trans (by simp [decodeFamily0, hlow])) id

theorem encodedBy_skp : EncodedBy 0xF0FF 0xE09E (fun w => .skp (fieldX w)) :=
  encodedBy_topByte 0xE#4 0x9E#8
    (fun htop hlow => (decode_of_familyE htop).trans (by simp [decodeFamilyE, hlow])) id

theorem encodedBy_sknp : EncodedBy 0xF0FF 0xE0A1 (fun w => .sknp (fieldX w)) :=
  encodedBy_topByte 0xE#4 0xA1#8
    (fun htop hlow => (decode_of_familyE htop).trans (by simp [decodeFamilyE, hlow])) id

theorem encodedBy_ldVxK : EncodedBy 0xF0FF 0xF00A (fun w => .ldVxK (fieldX w)) :=
  encodedBy_familyF 0x0A#8 (fun hlow => by simp [decodeFamilyF, hlow]) id

theorem encodedBy_addI : EncodedBy 0xF0FF 0xF01E (fun w => .addI (fieldX w)) :=
  encodedBy_familyF 0x1E#8 (fun hlow => by simp [decodeFamilyF, hlow]) id

theorem encodedBy_ldB : EncodedBy 0xF0FF 0xF033 (fun w => .ldB (fieldX w)) :=
  encodedBy_familyF 0x33#8 (fun hlow => by simp [decodeFamilyF, hlow]) id

theorem encodedBy_storeRegs : EncodedBy 0xF0FF 0xF055 (fun w => .storeRegs (fieldX w)) :=
  encodedBy_familyF 0x55#8 (fun hlow => by simp [decodeFamilyF, hlow]) id

theorem encodedBy_loadRegs : EncodedBy 0xF0FF 0xF065 (fun w => .loadRegs (fieldX w)) :=
  encodedBy_familyF 0x65#8 (fun hlow => by simp [decodeFamilyF, hlow]) id

/-! ## The opcode map -/

theorem opcodeRowsA_sound : ∀ r ∈ opcodeRowsA, EncodedBy r.mask r.pattern r.build := by
  simp only [opcodeRowsA, List.forall_mem_cons]
  exact ⟨encodedBy_cls, encodedBy_ret, encodedBy_jp, encodedBy_call, encodedBy_seImm, encodedBy_sneImm,
    encodedBy_seReg, encodedBy_sneReg, encodedBy_ldImm, encodedBy_addImm, List.forall_mem_nil _⟩

theorem opcodeRowsB_sound : ∀ r ∈ opcodeRowsB, EncodedBy r.mask r.pattern r.build := by
  simp only [opcodeRowsB, List.forall_mem_cons]
  exact ⟨encodedBy_ldReg, encodedBy_orReg, encodedBy_andReg, encodedBy_xorReg, encodedBy_addReg,
    encodedBy_subReg, encodedBy_shr, encodedBy_subnReg, encodedBy_shl, List.forall_mem_nil _⟩

theorem opcodeRowsC_sound : ∀ r ∈ opcodeRowsC, EncodedBy r.mask r.pattern r.build := by
  simp only [opcodeRowsC, List.forall_mem_cons]
  exact ⟨encodedBy_ldI, encodedBy_jpV0, encodedBy_rnd, encodedBy_drw, encodedBy_skp, encodedBy_sknp,
    List.forall_mem_nil _⟩

theorem opcodeRowsD_sound : ∀ r ∈ opcodeRowsD, EncodedBy r.mask r.pattern r.build := by
  simp only [opcodeRowsD, List.forall_mem_cons]
  exact ⟨encodedBy_ldVxDt, encodedBy_ldDtVx, encodedBy_ldStVx, encodedBy_ldVxK, encodedBy_addI,
    encodedBy_ldF, encodedBy_ldB, encodedBy_storeRegs, encodedBy_loadRegs, List.forall_mem_nil _⟩

/-- Settles O4: row by row, mask and pattern select the fields that lead the decoder to the row. -/
theorem opcodeMapRowsAreTheDecoder : Obligations.OpcodeMapRowsAreTheDecoder := by
  refine ⟨rfl, ?_⟩
  simp only [opcodeMap, List.forall_mem_append]
  exact ⟨⟨⟨opcodeRowsA_sound, opcodeRowsB_sound⟩, opcodeRowsC_sound⟩, opcodeRowsD_sound⟩

/-- A word that two rows accept has both patterns under the common mask. -/
theorem not_both_accept {r r' : OpcodeRow} (h : r.pattern &&& r'.mask ≠ r'.pattern &&& r.mask) (op : Word) :
    ¬ (r.accepts op ∧ r'.accepts op) := by
  rintro ⟨hr, hr'⟩
  refine h ?_
  rw [← hr, ← hr', BitVec.and_assoc, BitVec.and_assoc, BitVec.and_comm r.mask]

/-- Settles O5: any two rows differ in a bit that both masks keep. -/
theorem noWordMatchesTwoRows : Obligations.NoWordMatchesTwoRows := by
  have hdiffer : opcodeMap.Pairwise fun r r' => r.pattern &&& r'.mask ≠ r'.pattern &&& r.mask := by decide
  exact hdiffer.imp not_both_accept

/-! ## The unrecognized words (R77) -/

theorem decodeFamily0_eq_error {op : Word} {e : Unrecognized} : decodeFamily0 op = .error e ↔
    e = .family0 ∧ fieldNN op ∉ [0xE0#8, 0xEE#8] := by
  unfold decodeFamily0
  split_ifs <;> simp_all [eq_comm]

theorem decodeFamilyE_eq_error {op : Word} {e : Unrecognized} : decodeFamilyE op = .error e ↔
    e = .familyE ∧ fieldNN op ∉ [0x9E#8, 0xA1#8] := by
  unfold decodeFamilyE
  split_ifs <;> simp_all [eq_comm]

theorem decodeFamilyF_eq_error {op : Word} {e : Unrecognized} : decodeFamilyF op = .error e ↔
    e = .familyF ∧
      fieldNN op ∉ [0x07#8, 0x0A#8, 0x15#8, 0x18#8, 0x1E#8, 0x29#8, 0x33#8, 0x55#8, 0x65#8] := by
  unfold decodeFamilyF
  split_ifs <;> simp_all [eq_comm]

theorem decodeFamily8_eq_error {op : Word} {e : Unrecognized} : decodeFamily8 op = .error e ↔
    e = .family8 ∧ fieldN op ∉ [0x0#4, 0x1#4, 0x2#4, 0x3#4, 0x4#4, 0x5#4, 0x6#4, 0x7#4, 0xE#4] := by
  unfold decodeFamily8
  split_ifs <;> simp_all [eq_comm]

/-- The low nibbles no row of family 0x8 has are the seven of R77. -/
theorem not_mem_lowNibbles8 : ∀ n : BitVec 4,
    n ∉ [0x0#4, 0x1#4, 0x2#4, 0x3#4, 0x4#4, 0x5#4, 0x6#4, 0x7#4, 0xE#4] ↔
      n ∈ [0x8#4, 0x9#4, 0xA#4, 0xB#4, 0xC#4, 0xD#4, 0xF#4] := by decide

/-- Only the four families with a secondary dispatch reject words (R73, R77). -/
theorem decode_eq_error {op : Word} {e : Unrecognized} : decode op = .error e ↔
    (fieldT op = 0x0 ∧ decodeFamily0 op = .error e) ∨ (fieldT op = 0x8 ∧ decodeFamily8 op = .error e) ∨
    (fieldT op = 0xE ∧ decodeFamilyE op = .error e) ∨ (fieldT op = 0xF ∧ decodeFamilyF op = .error e) := by
  have hm := mem_nibbles (fieldT op)
  generalize ht : fieldT op = t at hm
  rw [decode_of_fieldT ht]
  simp only [List.mem_cons, List.not_mem_nil, or_false] at hm
  rcases hm with rfl | rfl | rfl | rfl | rfl | rfl | rfl | rfl | rfl | rfl | rfl | rfl | rfl | rfl |
    rfl | rfl <;> simp

/-- Settles O6: each family that rejects words does so by the name of its own space. -/
theorem unrecognizedWordsAreExactlyThese : Obligations.UnrecognizedWordsAreExactlyThese := by
  intro op
  simp only [ne_eq, decode_eq_error, decodeFamily0_eq_error, decodeFamily8_eq_error,
    not_mem_lowNibbles8, decodeFamilyE_eq_error, decodeFamilyF_eq_error, reduceCtorEq, true_and,
    false_and, and_false, or_false, false_or, not_false_eq_true, and_self]

/-! ## Ignored bits (R76) -/

/-- A run of bits that a mask keeps whole. -/
theorem extractLsb'_and_mask {op mask : Word} {start len : Nat}
    (h : mask.extractLsb' start len = BitVec.allOnes len) :
    (op &&& mask).extractLsb' start len = op.extractLsb' start len := by
  rw [BitVec.extractLsb'_and, h, BitVec.and_allOnes]

/-- The low nibble of 5xy0 and 9xy0 is read by nothing (D8). -/
theorem decode_and_low_nibble {op : Word} (h : fieldT op = 0x5 ∨ fieldT op = 0x9) :
    decode op = decode (op &&& 0xFFF0) := by
  have hT : fieldT (op &&& 0xFFF0) = fieldT op := extractLsb'_and_mask (by decide)
  have hX : fieldX (op &&& 0xFFF0) = fieldX op := congrArg BitVec.toFin (extractLsb'_and_mask (by decide))
  have hY : fieldY (op &&& 0xFFF0) = fieldY op := congrArg BitVec.toFin (extractLsb'_and_mask (by decide))
  rcases h with h | h
  · calc decode op = .ok (.seReg (fieldX op) (fieldY op)) := decode_of_fieldT h
      _ = .ok (.seReg (fieldX (op &&& 0xFFF0)) (fieldY (op &&& 0xFFF0))) := by rw [hX, hY]
      _ = decode (op &&& 0xFFF0) := (decode_of_fieldT (hT.trans h)).symm
  · calc decode op = .ok (.sneReg (fieldX op) (fieldY op)) := decode_of_fieldT h
      _ = .ok (.sneReg (fieldX (op &&& 0xFFF0)) (fieldY (op &&& 0xFFF0))) := by rw [hX, hY]
      _ = decode (op &&& 0xFFF0) := (decode_of_fieldT (hT.trans h)).symm

/-- The bits 11:8 of family 0x0 are read by nothing. -/
theorem decode_and_family0 {op : Word} (h : fieldT op = 0x0) : decode op = decode (op &&& 0xF0FF) := by
  have hT : fieldT (op &&& 0xF0FF) = fieldT op := extractLsb'_and_mask (by decide)
  have hNN : fieldNN (op &&& 0xF0FF) = fieldNN op := extractLsb'_and_mask (by decide)
  rw [decode_of_family0 h, decode_of_family0 (hT.trans h), decodeFamily0, decodeFamily0, hNN]

/-! ## Where no bit is ignored, the fields make the word again (R75, R76) -/

/-- The bits 11:0 are what is left of the 16-bit address when it is cut to its field. -/
theorem extractLsb'_fieldNNN (op : Word) : (fieldNNN op).extractLsb' 0 12 = op.extractLsb' 0 12 := by
  apply BitVec.eq_of_getLsbD_eq
  intro i hi
  simp [fieldNNN, hi, show i < 16 by omega]

theorem encNNN_fields {op : Word} {t : BitVec 4} (h : fieldT op = t) : encNNN t (fieldNNN op) = op := by
  subst h
  rw [encNNN, extractLsb'_fieldNNN]
  exact (BitVec.extractLsb'_append_extractLsb'_eq_extractLsb' rfl).trans BitVec.extractLsb'_eq_self

theorem encXNN_fields {op : Word} {t : BitVec 4} (h : fieldT op = t) :
    encXNN t (fieldX op) (fieldNN op) = op := by
  subst h
  have hlow : op.extractLsb' 8 4 ++ op.extractLsb' 0 8 = op.extractLsb' 0 12 :=
    BitVec.extractLsb'_append_extractLsb'_eq_extractLsb' rfl
  exact (congrArg (fieldT op ++ ·) hlow).trans
    ((BitVec.extractLsb'_append_extractLsb'_eq_extractLsb' rfl).trans BitVec.extractLsb'_eq_self)

theorem encXYN_fields {op : Word} {t : BitVec 4} (h : fieldT op = t) :
    encXYN t (fieldX op) (fieldY op) (fieldN op) = op := by
  have hlow : op.extractLsb' 4 4 ++ op.extractLsb' 0 4 = fieldNN op :=
    BitVec.extractLsb'_append_extractLsb'_eq_extractLsb' rfl
  exact (congrArg (encXNN t (fieldX op)) hlow).trans (encXNN_fields h)

/-- In ten families every bit is used: the instruction's word is the word decoded. -/
theorem encode_of_decode {op : Word} {i : Instr}
    (ht : fieldT op ∈ [0x1#4, 0x2#4, 0x3#4, 0x4#4, 0x6#4, 0x7#4, 0xA#4, 0xB#4, 0xC#4, 0xD#4])
    (h : decode op = .ok i) : encode i = op := by
  have hsel := selectedBy_of_decode h
  cases i with
  | jp | call | ldI | jpV0 =>
    cases (decode_of_fieldT hsel).symm.trans h
    exact encNNN_fields hsel
  | seImm | sneImm | ldImm | addImm | rnd =>
    cases (decode_of_fieldT hsel).symm.trans h
    exact encXNN_fields hsel
  | drw =>
    cases (decode_of_fieldT hsel).symm.trans h
    rw [encode, BitVec.ofNat_toNat, BitVec.setWidth_eq]
    exact encXYN_fields hsel
  | seReg | sneReg => exact absurd ht (by rw [hsel]; decide)
  | _ => exact absurd ht (by rw [hsel.1]; decide)

/-- Settles O7: a mask that keeps the fields a family reads leaves its decoding alone, the shifts do not
read Vy, and in the other ten families the operands with the top nibble are the whole word. -/
theorem ignoredBitsDoNotMatter : Obligations.IgnoredBitsDoNotMatter :=
  ⟨fun _ => decode_and_low_nibble, fun _ => decode_and_family0, fun _ _ _ _ => ⟨rfl, rfl⟩,
    fun _ _ => encode_of_decode⟩

/-! ## Words in memory (R53, R70) -/

/-- The word `hi ++ lo` as a number (R53). -/
theorem toNat_append_bytes (hi lo : Byte) : (hi ++ lo).toNat = hi.toNat * 256 + lo.toNat := by
  rw [BitVec.toNat_append, ← Nat.shiftLeft_add_eq_or_of_lt lo.isLt, Nat.shiftLeft_eq]

/-- Settles O8: the bytes of a word make it again, and the word is decoded to its instruction. -/
theorem wordsLieHighByteFirst : Obligations.WordsLieHighByteFirst := by
  refine ⟨toNat_append_bytes, fun i rest h => ?_⟩
  simp only [wordBytes, List.cons_append, List.nil_append, decodeBytes, wordOf_bytes, decode_encode h]

/-- Settles O9: the top nibble of each word, with its secondary nibble or byte, leads to its row. -/
theorem sampleWordsDecode : Obligations.SampleWordsDecode :=
  ⟨rfl, rfl, rfl, rfl, rfl, rfl, rfl, rfl, rfl⟩

end Sys2Proof.Machine
end

section
/-! SUPPORT. The state an instruction that completes leaves, as one function of the instruction and the
state, and the one rule about `exec`: it takes the fault R201 tabulates, or ends in that state. The frames
and the tables of R22, R109 and R201 are then facts about that function. -/

namespace Sys2Proof.Machine

/-- 00EE that completes: the top entry is read and stays in place, and pc goes on after it (R140). -/
def returned (s : State) : State :=
  { s with sp := ⟨s.sp.val - 1, by omega⟩, pc := s.stack.toList.getD (s.sp.val - 1) 0 + 2 }

/-- 2nnn that completes: pc becomes the top entry (R142). -/
def called (nnn : Word) (s : State) : State :=
  { s with
    stack := if h : s.sp.val < 16 then s.stack.set s.sp.val s.pc h else s.stack
    sp := ⟨min (s.sp.val + 1) 16, by omega⟩
    pc := nnn }

/-- Fx0A: wait, or write the key drawn (R194). -/
def waited (x : Reg) (s : State) : State :=
  match drawKey s with
  | none => s
  | some (k, t) => advance (writeReg t x (toByte k.val))

/-- Dxyn that completes: the display and the collision flag after its n rows are drawn (R131). -/
def drawn (x y : Reg) (n : Nat) (s : State) : List Host.Cell × Bool :=
  drawRows (readReg s x).toNat (readReg s y).toNat (dataBytes s n) (s.disp, false)

/-- The state an instruction leaves where it completes (R113). -/
def completion (s : State) : Instr → State
  | .cls => advance (setDisp s [])
  | .ret => returned s
  | .jp nnn => setPc s nnn
  | .call nnn => called nnn s
  | .seImm x nn => skipIf s (readReg s x == nn)
  | .sneImm x nn => skipIf s (readReg s x != nn)
  | .seReg x y => skipIf s (readReg s x == readReg s y)
  | .sneReg x y => skipIf s (readReg s x != readReg s y)
  | .ldImm x nn => advance (writeReg s x nn)
  | .addImm x nn => advance (writeReg s x (toByte ((readReg s x).toNat + nn.toNat)))
  | .ldReg x y => advance (writeReg s x (readReg s y))
  | .orReg x y => advance (writeReg s x (readReg s x ||| readReg s y))
  | .andReg x y => advance (writeReg s x (readReg s x &&& readReg s y))
  | .xorReg x y => advance (writeReg s x (readReg s x ^^^ readReg s y))
  | .addReg x y => writeFlagThenResult s x (carryFlag (readReg s x) (readReg s y))
      (toByte ((readReg s x).toNat + (readReg s y).toNat))
  | .subReg x y => writeFlagThenResult s x (noBorrowFlag (readReg s x) (readReg s y))
      (subByte (readReg s x) (readReg s y))
  | .shr x _ => writeFlagThenResult s x (lowBitFlag (readReg s x)) (readReg s x >>> 1)
  | .subnReg x y => writeFlagThenResult s x (noBorrowFlag (readReg s y) (readReg s x))
      (subByte (readReg s y) (readReg s x))
  | .shl x _ => writeFlagThenResult s x (highBitFlag (readReg s x)) (readReg s x <<< 1)
  | .ldI nnn => advance (setI s nnn)
  | .jpV0 nnn => setPc s (toWord ((readReg s V0).toNat + nnn.toNat))
  | .rnd x nn => advance (writeReg (drawRand8 s).2 x (Config.rand8 s.draws &&& nn))
  | .drw x y n => advance (writeReg (setDisp s (drawn x y n s).1) VF (flagByte (drawn x y n s).2))
  | .skp x => skipIf s (s.key.toList.getD (readReg s x).toNat false)
  | .sknp x => skipIf s (!s.key.toList.getD (readReg s x).toNat false)
  | .ldVxDt x => advance (writeReg s x s.dt)
  | .ldDtVx x => advance (setDt s (readReg s x))
  | .ldStVx x => advance (setSt s (readReg s x))
  | .ldVxK x => waited x s
  | .addI x => advance (setI (writeReg s VF (indexOverflowFlag s.i (readReg s x)))
      (toWord (s.i.toNat + (readReg s x).toNat)))
  | .ldF x => advance (setI s (glyphAddr (readReg s x)))
  | .ldB x => advance (setMem s (placeBytes s.font s.mem (baseAddr s) (decimalDigits (readReg s x))))
  | .storeRegs x => advance (setI (setMem s (placeBytes s.font s.mem (baseAddr s) (readRegs s x)))
      (postIncrement s.i (x.val + 1)))
  | .loadRegs x => advance (setI (writeRegs s 0 (dataBytes s (x.val + 1)))
      (postIncrement s.i (x.val + 1)))

theorem execLdVxK_eq_waited (x : Reg) (s : State) : execLdVxK x s = .next (waited x s) := by
  simp only [execLdVxK, waited]
  cases drawKey s <;> rfl

/-! ## When R201 names a fault -/

theorem accessFault_eq_some {s : State} {n : Nat} {f : Fault} : accessFault s n = some f ↔
    (0 < n ∧ 0x1000 < baseAddr s + n) ∧ f = .memOutOfRange (max (baseAddr s) 0x1000) := by
  simp [accessFault, baseAddr, eq_comm]

theorem accessFault_eq_none {s : State} {n : Nat} :
    accessFault s n = none ↔ n = 0 ∨ baseAddr s + n ≤ 0x1000 := by
  simp only [accessFault, baseAddr, ite_eq_right_iff, reduceCtorEq, imp_false]
  omega

theorem keyFault_eq_some {s : State} {x : Reg} {f : Fault} : keyFault s x = some f ↔
    16 ≤ (readReg s x).toNat ∧ f = .keyOutOfRange (readReg s x) := by
  simp [keyFault, eq_comm]

theorem keyFault_eq_none {s : State} {x : Reg} : keyFault s x = none ↔ (readReg s x).toNat < 16 := by
  simp [keyFault]

/-- An instruction whose fault R201 names takes it. -/
theorem exec_of_fault {i : Instr} {s : State} {f : Fault} (h : faultRaised s i = some f) :
    exec i s = .next (takeFault f s) := by
  cases i with
  | ret =>
    obtain ⟨hsp, rfl⟩ : s.sp.val = 0 ∧ .stackUnderflow = f := by simpa [faultRaised] using h
    exact execRet_of_zero s hsp
  | call nnn =>
    obtain ⟨hsp, rfl⟩ : s.sp.val = 16 ∧ .stackOverflow = f := by simpa [faultRaised] using h
    exact execCall_of_eq nnn s hsp
  | skp x =>
    obtain ⟨hk, rfl⟩ := keyFault_eq_some.1 h
    exact execSkp_of_ge x s hk
  | sknp x =>
    obtain ⟨hk, rfl⟩ := keyFault_eq_some.1 h
    exact execSknp_of_ge x s hk
  | drw x y n =>
    obtain ⟨⟨hn, hgt⟩, rfl⟩ := accessFault_eq_some.1 h
    exact execDrw_of_gt x y n s hn hgt
  | ldB x =>
    obtain ⟨⟨-, hgt⟩, rfl⟩ := accessFault_eq_some.1 h
    exact execLdB_of_gt x s hgt
  | storeRegs x =>
    obtain ⟨⟨-, hgt⟩, rfl⟩ := accessFault_eq_some.1 h
    exact execStoreRegs_of_gt x s hgt
  | loadRegs x =>
    obtain ⟨⟨-, hgt⟩, rfl⟩ := accessFault_eq_some.1 h
    exact execLoadRegs_of_gt x s hgt
  | _ => cases h

/-- An instruction for which R201 names no fault completes. -/
theorem exec_of_noFault {i : Instr} {s : State} (h : faultRaised s i = none) :
    exec i s = .next (completion s i) := by
  cases i with
  | ret =>
    have hsp : 0 < s.sp.val := by
      refine Nat.pos_of_ne_zero fun h0 => ?_
      simp [faultRaised, h0] at h
    refine (execRet_of_pos s hsp).trans ?_
    simp [completion, returned, show s.sp.val - 1 < 16 by omega]
  | call nnn =>
    have hsp : s.sp.val < 16 := by
      have hne : s.sp.val ≠ 16 := by simpa [faultRaised] using h
      omega
    refine (execCall_of_lt nnn s hsp).trans ?_
    simp [completion, called, hsp]
  | skp x =>
    have hk := keyFault_eq_none.1 h
    refine (execSkp_of_lt x s hk).trans ?_
    simp [completion, hk]
  | sknp x =>
    have hk := keyFault_eq_none.1 h
    refine (execSknp_of_lt x s hk).trans ?_
    simp [completion, hk]
  | drw x y n => exact execDrw_of_le x y n s (accessFault_eq_none.1 h)
  | ldB x => exact execLdB_of_le x s (by simpa using accessFault_eq_none.1 h)
  | storeRegs x => exact execStoreRegs_of_le x s (by simpa using accessFault_eq_none.1 h)
  | loadRegs x => exact execLoadRegs_of_le x s (by simpa using accessFault_eq_none.1 h)
  | ldVxK x => exact execLdVxK_eq_waited x s
  | _ => rfl

/-- Everything an instruction can do. -/
theorem exec_cases (i : Instr) (s : State) :
    (∃ f, faultRaised s i = some f ∧ exec i s = .next (takeFault f s)) ∨
    (faultRaised s i = none ∧ exec i s = .next (completion s i)) := by
  cases h : faultRaised s i with
  | some f => exact .inl ⟨f, rfl, exec_of_fault h⟩
  | none => exact .inr ⟨rfl, exec_of_noFault h⟩

/-- The state after an instruction: the fault taken, or the completion. -/
theorem eq_of_exec_eq_next {i : Instr} {s t : State} (h : exec i s = .next t) :
    (∃ f, faultRaised s i = some f ∧ t = takeFault f s) ∨
    (faultRaised s i = none ∧ t = completion s i) := by
  rcases exec_cases i s with ⟨f, hf, he⟩ | ⟨hn, he⟩
  · exact .inl ⟨f, hf, by simpa using h.symm.trans he⟩
  · exact .inr ⟨hn, by simpa using h.symm.trans he⟩

end Sys2Proof.Machine
end

section
/-! SUPPORT. What a completion leaves unchanged, field by field, from the effects tabulated for the
instruction (R22, R24-R31, R58). -/

namespace Sys2Proof.Machine

/-! ## The two completions that are written by recursion or by a draw -/

/-- Fx0A waits with no key down, and else writes a key that is down and counts the draw. -/
theorem waited_cases (x : Reg) (s : State) :
    ((∀ k : Fin 16, s.key[k.val]'k.isLt = false) ∧ waited x s = s) ∨
    ∃ k : Fin 16, s.key[k.val]'k.isLt = true ∧
      waited x s = advance (writeReg { s with draws := s.draws + 1 } x (toByte k.val)) := by
  rcases drawKey_cases s with ⟨hdraw, hup⟩ | ⟨k, hdraw, hdown⟩
  · exact .inl ⟨hup, by simp only [waited, hdraw]⟩
  · exact .inr ⟨k, hdown, by simp only [waited, hdraw]⟩

/-- Fx0A changes registers, pc and the count of draws only. -/
theorem waited_rest (x : Reg) (s : State) : waited x s =
    { s with v := (waited x s).v, pc := (waited x s).pc, draws := (waited x s).draws } := by
  rcases waited_cases x s with ⟨-, hw⟩ | ⟨k, -, hw⟩
  · rw [hw]
  · rw [hw]; rfl

@[simp] theorem waited_i (x : Reg) (s : State) : (waited x s).i = s.i := by rw [waited_rest]
@[simp] theorem waited_stack (x : Reg) (s : State) : (waited x s).stack = s.stack := by rw [waited_rest]
@[simp] theorem waited_sp (x : Reg) (s : State) : (waited x s).sp = s.sp := by rw [waited_rest]
@[simp] theorem waited_dt (x : Reg) (s : State) : (waited x s).dt = s.dt := by rw [waited_rest]
@[simp] theorem waited_st (x : Reg) (s : State) : (waited x s).st = s.st := by rw [waited_rest]
@[simp] theorem waited_disp (x : Reg) (s : State) : (waited x s).disp = s.disp := by rw [waited_rest]
@[simp] theorem waited_redraw (x : Reg) (s : State) : (waited x s).redraw = s.redraw := by rw [waited_rest]
@[simp] theorem waited_mem (x : Reg) (s : State) : (waited x s).mem = s.mem := by rw [waited_rest]

theorem readReg_waited_ne {x r : Reg} (s : State) (h : r ≠ x) :
    readReg (waited x s) r = readReg s r := by
  rcases waited_cases x s with ⟨-, hw⟩ | ⟨k, -, hw⟩
  · rw [hw]
  · rw [hw, readReg_advance, readReg_writeReg_ne _ _ h]; rfl

@[simp] theorem writeRegs_i (s : State) (k : Nat) (bs : List Byte) : (writeRegs s k bs).i = s.i := by
  rw [writeRegs_rest]
@[simp] theorem writeRegs_pc (s : State) (k : Nat) (bs : List Byte) : (writeRegs s k bs).pc = s.pc := by
  rw [writeRegs_rest]
@[simp] theorem writeRegs_stack (s : State) (k : Nat) (bs : List Byte) :
    (writeRegs s k bs).stack = s.stack := by rw [writeRegs_rest]
@[simp] theorem writeRegs_sp (s : State) (k : Nat) (bs : List Byte) : (writeRegs s k bs).sp = s.sp := by
  rw [writeRegs_rest]
@[simp] theorem writeRegs_dt (s : State) (k : Nat) (bs : List Byte) : (writeRegs s k bs).dt = s.dt := by
  rw [writeRegs_rest]
@[simp] theorem writeRegs_st (s : State) (k : Nat) (bs : List Byte) : (writeRegs s k bs).st = s.st := by
  rw [writeRegs_rest]
@[simp] theorem writeRegs_disp (s : State) (k : Nat) (bs : List Byte) :
    (writeRegs s k bs).disp = s.disp := by rw [writeRegs_rest]
@[simp] theorem writeRegs_redraw (s : State) (k : Nat) (bs : List Byte) :
    (writeRegs s k bs).redraw = s.redraw := by rw [writeRegs_rest]
@[simp] theorem writeRegs_mem (s : State) (k : Nat) (bs : List Byte) : (writeRegs s k bs).mem = s.mem := by
  rw [writeRegs_rest]
@[simp] theorem writeRegs_draws (s : State) (k : Nat) (bs : List Byte) :
    (writeRegs s k bs).draws = s.draws := by rw [writeRegs_rest]

/-- A skip changes pc only. -/
theorem skipIf_rest (s : State) (c : Bool) : skipIf s c = { s with pc := (skipIf s c).pc } := by
  cases c <;> rfl

/-! ## State no instruction that completes writes -/

/-- Status, keypad, diagnostic stream, FONT and the host's transactions are written by no completion. -/
theorem completion_rest (s : State) (i : Instr) : completion s i =
    { completion s i with
      key := s.key, status := s.status, diag := s.diag, font := s.font, pending := s.pending } := by
  cases i with
  | seImm | sneImm | seReg | sneReg | skp | sknp => rw [completion, skipIf_rest]
  | ldVxK => rw [completion, waited_rest]
  | loadRegs => rw [completion, writeRegs_rest]; rfl
  | _ => rfl

@[simp] theorem completion_key (s : State) (i : Instr) : (completion s i).key = s.key := by
  rw [completion_rest]
@[simp] theorem completion_status (s : State) (i : Instr) : (completion s i).status = s.status := by
  rw [completion_rest]
@[simp] theorem completion_diag (s : State) (i : Instr) : (completion s i).diag = s.diag := by
  rw [completion_rest]
@[simp] theorem completion_font (s : State) (i : Instr) : (completion s i).font = s.font := by
  rw [completion_rest]
@[simp] theorem completion_pending (s : State) (i : Instr) : (completion s i).pending = s.pending := by
  rw [completion_rest]

/-! ## State only the instructions named for it write -/

variable {i : Instr} {s : State}

theorem completion_i (h : (effects i).index = false) : (completion s i).i = s.i := by
  cases i with
  | ldI | addI | ldF | storeRegs | loadRegs => cases h
  | _ => simp [completion, returned, called]

theorem completion_dt (h : (effects i).delay = false) : (completion s i).dt = s.dt := by
  cases i with
  | ldDtVx => cases h
  | _ => simp [completion, returned, called]

theorem completion_st (h : (effects i).sound = false) : (completion s i).st = s.st := by
  cases i with
  | ldStVx => cases h
  | _ => simp [completion, returned, called]

theorem completion_stack (h : (effects i).stack = false) :
    (completion s i).stack = s.stack ∧ (completion s i).sp = s.sp := by
  cases i with
  | ret | call => cases h
  | _ => simp [completion]

theorem completion_disp (h : (effects i).display = false) : (completion s i).disp = s.disp := by
  cases i with
  | cls | drw => cases h
  | _ => simp [completion, returned, called]

/-- redraw is set by the display instructions and kept by the others (R31). -/
theorem completion_redraw (s : State) (i : Instr) :
    (completion s i).redraw = ((effects i).display || s.redraw) := by
  cases i <;> simp [completion, returned, called, effects]

theorem completion_draws (h : (effects i).draw = false) : (completion s i).draws = s.draws := by
  cases i with
  | rnd | ldVxK => cases h
  | _ => simp [completion, returned, called]

theorem completion_mem (h : (effects i).stored = 0) : (completion s i).mem = s.mem := by
  cases i with
  | ldB | storeRegs => cases h
  | _ => simp [completion, returned, called]

/-- A completion writes no register but those R22 tabulates. -/
theorem readReg_completion {r : Reg} (h : writesReg i r = false) :
    readReg (completion s i) r = readReg s r := by
  cases i with
  | ldImm x | addImm x | ldReg x | orReg x | andReg x | xorReg x | rnd x | ldVxDt x =>
    have hr : r ≠ x := by simpa [writesReg] using h
    simp [completion, readReg_writeReg, hr]
  | addReg x | subReg x | shr x | subnReg x | shl x =>
    have hr : r ≠ x ∧ r ≠ VF := by simpa [writesReg] using h
    simp [completion, readReg_writeFlagThenResult, hr]
  | drw | addI =>
    have hr : r ≠ VF := by simpa [writesReg] using h
    simp [completion, readReg_writeReg, hr]
  | ldVxK x => exact readReg_waited_ne s (by simpa [writesReg] using h)
  | loadRegs x =>
    have hr : x.val < r.val := by simpa [writesReg] using h
    simp only [completion, readReg_advance, readReg_setI]
    rw [readReg_writeRegs _ _ _ (by simp), if_neg (by simp; omega)]
  | seImm | sneImm | seReg | sneReg | skp | sknp => simp [completion]
  | _ => rfl

end Sys2Proof.Machine
end

section
/-! SUPPORT. Completion or fault, pc, and the frames of every instruction (R22, R24-R37, R109, R201), and
the statements they settle. -/

namespace Sys2Proof.Machine

/-- Settles O15: an instruction takes the fault tabulated for it, or completes, and no completion writes
status. -/
theorem instructionsCompleteOrFaultAsTabulated : Obligations.InstructionsCompleteOrFaultAsTabulated :=
  fun i s => ⟨fun _ hf => exec_of_fault hf,
    fun hn => ⟨completion s i, exec_of_noFault hn, completion_status s i⟩⟩

/-- pc after a completion is the table of R109. -/
theorem completion_pc (s : State) (i : Instr) : (completion s i).pc = pcAfter s i := by
  cases i with
  | seImm | sneImm | seReg | sneReg | skp | sknp => simp [completion, pcAfter, skipPc]
  | ldVxK x =>
    rcases waited_cases x s with ⟨hup, hw⟩ | ⟨k, hdown, hw⟩
    · simp [completion, hw, pcAfter, hup]
    · have hsome : ¬ ∀ k : Fin 16, s.key[k.val]'k.isLt = false := fun hup => by simp [hup k] at hdown
      simp only [completion, hw, pcAfter, if_neg hsome, advance_pc, writeReg_pc]
  | loadRegs x => simp [completion, pcAfter]
  | _ => rfl

/-- Settles O24: pc after a completion is the table of R109. -/
theorem pcFollowsTheTable : Obligations.PcFollowsTheTable :=
  fun i s hn => ⟨completion s i, exec_of_noFault hn, completion_pc s i⟩

/-- Settles O25: a fault writes no register, and a completion writes only those of R22. -/
theorem registersAreWrittenOnlyAsTabulated : Obligations.RegistersAreWrittenOnlyAsTabulated := by
  intro i s t r he hr
  rcases eq_of_exec_eq_next he with ⟨f, -, rfl⟩ | ⟨-, rfl⟩
  · exact readReg_takeFault f s r
  · exact readReg_completion hr

/-- A byte of memory depends on FONT and the listed cells only. -/
theorem memByte_congr {s t : State} (hfont : t.font = s.font) (hmem : t.mem = s.mem) (a : Nat) :
    memByte t a = memByte s a := by rw [memByte, memByte, hfont, hmem]

theorem pixel_congr {s t : State} (hdisp : t.disp = s.disp) (k : Nat) : pixel t k = pixel s k := by
  rw [pixel, pixel, hdisp]

/-- Settles O26: a fault writes status only, and each field that a completion may write is written only
under the effect named for it. -/
theorem otherStateChangesOnlyAsTabulated : Obligations.OtherStateChangesOnlyAsTabulated := by
  intro i s t he
  rcases eq_of_exec_eq_next he with ⟨f, hf, rfl⟩ | ⟨-, rfl⟩
  · exact ⟨fun _ => rfl, fun _ => rfl, fun _ => rfl, fun _ => ⟨rfl, rfl⟩, fun _ => ⟨fun _ => rfl, rfl⟩,
      fun _ _ => rfl, fun _ => rfl, fun hn => (nomatch hf.symm.trans hn), rfl, rfl, rfl, rfl⟩
  · exact ⟨completion_i, completion_dt, completion_st, completion_stack,
      fun h => ⟨pixel_congr (completion_disp h), by simp [completion_redraw, h]⟩,
      fun h => memByte_congr (completion_font s i) (completion_mem h), completion_draws,
      fun _ => completion_status s i, completion_key s i, completion_diag s i, completion_font s i,
      completion_pending s i⟩

/-- Settles O27: only Fx33 and Fx55 store, and each places its bytes in memory it has found to exist. -/
theorem storesChangeOnlyTheirBytes : Obligations.StoresChangeOnlyTheirBytes := by
  intro i s t a hwf he hout
  rcases eq_of_exec_eq_next he with ⟨f, -, rfl⟩ | ⟨hn, rfl⟩
  · rfl
  cases i with
  | ldB x =>
    have hfits : baseAddr s + 3 ≤ 0x1000 := by simpa using accessFault_eq_none.1 hn
    exact (memByte_setMem_placeBytes s hwf hfits a).trans (if_neg hout)
  | storeRegs x =>
    have hfits : baseAddr s + (readRegs s x).length ≤ 0x1000 := by
      simpa [readRegs_length] using accessFault_eq_none.1 hn
    refine (memByte_setMem_placeBytes s hwf hfits a).trans (if_neg ?_)
    rwa [readRegs_length]
  | _ => exact memByte_congr (completion_font s _) (completion_mem rfl) a

/-! ## ST, the diagnostic stream and the host's transactions are read by no instruction (R28, R35) -/

/-- The same state but for the three pieces that are outputs or the host's. -/
def withOutputs (s : State) (b : Byte) (d : List DiagRecord) (q : List Transaction) : State :=
  { s with st := b, diag := d, pending := q }

theorem faultRaised_withOutputs (s : State) (i : Instr) (b : Byte) (d : List DiagRecord)
    (q : List Transaction) : faultRaised (withOutputs s b d q) i = faultRaised s i := by
  cases i <;> rfl

theorem waited_withOutputs (x : Reg) (s : State) (b : Byte) (d : List DiagRecord)
    (q : List Transaction) : waited x (withOutputs s b d q) = withOutputs (waited x s) b d q := by
  have hkeys : keysDown (withOutputs s b d q) = keysDown s := rfl
  have hdraws : (withOutputs s b d q).draws = s.draws := rfl
  simp only [waited, drawKey, hkeys, hdraws]
  cases pickKey (Config.keyChoice s.draws) (keysDown s) <;> rfl

theorem writeRegs_withOutputs (s : State) (k : Nat) (bs : List Byte) (b : Byte) (d : List DiagRecord)
    (q : List Transaction) :
    writeRegs (withOutputs s b d q) k bs = withOutputs (writeRegs s k bs) b d q := by
  induction bs generalizing s k with
  | nil => rfl
  | cons c rest ih =>
    simp only [writeRegs]
    split
    · exact ih (writeReg s ⟨k, ‹_›⟩ c) (k + 1)
    · rfl

theorem skipIf_withOutputs (s : State) (c : Bool) (b : Byte) (d : List DiagRecord)
    (q : List Transaction) : skipIf (withOutputs s b d q) c = withOutputs (skipIf s c) b d q := by
  cases c <;> rfl

/-- A completion carries the three pieces along unread; Fx18 alone writes one of them. -/
theorem completion_withOutputs (s : State) (i : Instr) (b : Byte) (d : List DiagRecord)
    (q : List Transaction) : completion (withOutputs s b d q) i =
      withOutputs (completion s i) (if (effects i).sound then (completion s i).st else b) d q := by
  cases i with
  | seImm | sneImm | seReg | sneReg | skp | sknp => exact skipIf_withOutputs ..
  | ldVxK => exact waited_withOutputs ..
  | loadRegs x =>
    exact congrArg (fun u => advance (setI u (postIncrement s.i (x.val + 1)))) (writeRegs_withOutputs ..)
  | _ => rfl

/-- Settles O28: neither the fault an instruction raises nor its completion reads the three pieces. -/
theorem outputsAreReadByNoInstruction : Obligations.OutputsAreReadByNoInstruction := by
  intro i s t b d q he
  change exec i (withOutputs s b d q) = _
  rcases eq_of_exec_eq_next he with ⟨f, hf, rfl⟩ | ⟨hn, rfl⟩
  · have hquiet : (effects i).sound = false := by
      cases i with
      | ldStVx => cases hf
      | _ => rfl
    rw [exec_of_fault ((faultRaised_withOutputs s i b d q).trans hf), hquiet]
    rfl
  · rw [exec_of_noFault ((faultRaised_withOutputs s i b d q).trans hn), completion_withOutputs]
    rfl

end Sys2Proof.Machine
end

section
/-! SUPPORT. What every step keeps: memory and display canonical, pixels 0 or 1, FONT (R40, R50, R134, log 5),
and the statements they settle. -/

namespace Sys2Proof.Machine

/-- The transaction a step performs is taken off the host's list, and nothing else changes (R101, log 1). -/
theorem nextTransaction_state (s : State) :
    (nextTransaction s).2 = { s with pending := (nextTransaction s).2.pending } := by
  unfold nextTransaction
  split <;> rfl

/-- Everything a CYCLE can do: nothing in FAULTED, a fault of the fetch, a record, an instruction. -/
theorem cycle_cases (s : State) :
    cycle s = .next s ∨ (∃ f, cycle s = .next (takeFault f (clearRedraw s))) ∨
    (∃ op, cycle s = .next (invalidOpcode op (clearRedraw s))) ∨
    ∃ i, cycle s = exec i (clearRedraw s) := by
  cases hstatus : s.status with
  | faulted f => exact .inl (cycle_of_faulted hstatus)
  | running =>
    rw [cycle_of_running hstatus]
    rcases fetchDecodeExecute_cases (clearRedraw s) with
      ⟨f, -, he⟩ | ⟨op, _, -, -, he⟩ | ⟨_, i, -, -, he⟩
    · exact .inr (.inl ⟨f, he⟩)
    · exact .inr (.inr (.inl ⟨op, he⟩))
    · exact .inr (.inr (.inr ⟨i, he⟩))

/-! ## The invariant -/

theorem decimalDigits_length (b : Byte) : (decimalDigits b).length = 3 := rfl

/-- Only Fx33 and Fx55 write memory, and they place their bytes inside it. -/
theorem completion_memory_wf {i : Instr} {s : State} (hwf : Memory.wf s.font s.mem)
    (hn : faultRaised s i = none) : Memory.wf s.font (completion s i).mem := by
  cases i with
  | ldB x =>
    exact placeBytes_wf hwf (by simpa [decimalDigits_length] using accessFault_eq_none.1 hn)
  | storeRegs x =>
    exact placeBytes_wf hwf (by simpa [readRegs_length] using accessFault_eq_none.1 hn)
  | _ => rwa [completion_mem rfl]

/-- Only 00E0 and Dxyn write the display: 00E0 lists no pixel, and Dxyn toggles pixels of the screen. -/
theorem completion_display_wf {s : State} (i : Instr) (hwf : Display.wf s.disp)
    (hbin : Display.binary s.disp) :
    Display.wf (completion s i).disp ∧ Display.binary (completion s i).disp := by
  cases i with
  | cls => exact ⟨cellsWf_nil, fun _ h => nomatch h⟩
  | drw x y n =>
    obtain ⟨hw, hb, -⟩ := drawRows_spec (readReg s x).toNat (readReg s y).toNat (dataBytes s n)
      (s.disp, false) hwf hbin
    exact ⟨hw, hb⟩
  | _ =>
    rw [completion_disp rfl]
    exact ⟨hwf, hbin⟩

theorem exec_keeps_inv {i : Instr} {s t : State} (hinv : StateInv s) (h : exec i s = .next t) :
    StateInv t := by
  obtain ⟨hmem, hdisp, hbin⟩ := hinv
  rcases eq_of_exec_eq_next h with ⟨f, -, rfl⟩ | ⟨hn, rfl⟩
  · exact ⟨hmem, hdisp, hbin⟩
  · refine ⟨?_, completion_display_wf i hdisp hbin⟩
    rw [completion_font]
    exact completion_memory_wf hmem hn

theorem cycle_keeps_inv {s t : State} (hinv : StateInv s) (h : cycle s = .next t) : StateInv t := by
  rcases cycle_cases s with he | ⟨f, he⟩ | ⟨op, he⟩ | ⟨i, he⟩
  · cases he.symm.trans h; exact hinv
  · cases he.symm.trans h; exact hinv
  · cases he.symm.trans h; exact hinv
  · exact exec_keeps_inv (s := clearRedraw s) hinv (he.symm.trans h)

theorem init_inv (s : State) : StateInv (init s) := ⟨cellsWf_nil, cellsWf_nil, fun _ h => nomatch h⟩

theorem load_keeps_inv {s : State} (bytes : List Byte) (hinv : StateInv s) :
    StateInv (load bytes s).2 := by
  rcases load_cases bytes s with ⟨-, he⟩ | ⟨hle, he⟩
  · rwa [he]
  · rw [he]
    exact ⟨placeBytes_wf cellsWf_nil (by omega), (init_inv s).2⟩

/-- SETKEY sets its key, or is refused. -/
theorem setKey_eq_next {k : Nat} {p : Bool} {s t : State} (h : setKey k p s = .next t) :
    ∃ hk : k < 16, t = { s with key := s.key.set k p hk } := by
  by_cases hk : k < 16
  · exact ⟨hk, by simpa [setKey, hk, eq_comm] using h⟩
  · simp [setKey, hk] at h

theorem perform_keeps_inv {tr : Transaction} {s t : State} (hinv : StateInv s)
    (h : perform tr s = .next t) : StateInv t := by
  cases tr with
  | cycle => exact cycle_keeps_inv hinv h
  | tick60 => cases h; exact hinv
  | setKey k p => obtain ⟨_, rfl⟩ := setKey_eq_next h; exact hinv
  | init => cases h; exact init_inv s
  | load bytes => cases h; exact load_keeps_inv bytes hinv

/-- Settles O17: transaction by transaction, and for CYCLE instruction by instruction. -/
theorem stepKeepsInvariant : Obligations.StepKeepsInvariant := by
  intro s t hinv h
  refine perform_keeps_inv ?_ h
  rw [nextTransaction_state]
  exact hinv

/-- Settles O18: after reset no byte and no pixel is listed. -/
theorem resetMeetsInvariant : Obligations.ResetMeetsInvariant := init_inv State.reset

/-! ## FONT -/

theorem cycle_font {s t : State} (h : cycle s = .next t) : t.font = s.font := by
  rcases cycle_cases s with he | ⟨f, he⟩ | ⟨op, he⟩ | ⟨i, he⟩
  · cases he.symm.trans h; rfl
  · cases he.symm.trans h; rfl
  · cases he.symm.trans h; rfl
  · rcases eq_of_exec_eq_next (he.symm.trans h) with ⟨f, -, rfl⟩ | ⟨-, rfl⟩
    · rfl
    · exact completion_font ..

theorem perform_font {tr : Transaction} {s t : State} (h : perform tr s = .next t) :
    t.font = s.font := by
  cases tr with
  | cycle => exact cycle_font h
  | tick60 => cases h; rfl
  | setKey k p => obtain ⟨_, rfl⟩ := setKey_eq_next h; rfl
  | init => cases h; rfl
  | load bytes =>
    cases h
    rcases load_cases bytes s with ⟨-, he⟩ | ⟨-, he⟩
    · rw [he]
    · rw [he]; rfl

theorem step_font {s t : State} (h : step s = .next t) : t.font = s.font := by
  have hfont := perform_font h
  rwa [nextTransaction_state] at hfont

/-- A byte of memory after INIT: FONT below 0x050, and 0 elsewhere (R38, R51). -/
theorem memByte_init (s : State) (a : Nat) :
    memByte (init s) a = if h : a < 80 then s.font[a] else 0 := rfl

/-- A byte of memory after a LOAD that succeeds: the program's from 0x200 on, and as after INIT elsewhere
(R231). -/
theorem memByte_load {bytes : List Byte} (s : State) (hle : bytes.length ≤ 0xE00) (a : Nat) :
    memByte (load bytes s).2 a =
      if 0x200 ≤ a ∧ a < 0x200 + bytes.length then bytes.getD (a - 0x200) 0
      else if h : a < 80 then s.font[a] else 0 := by
  rcases load_cases bytes s with ⟨hgt, -⟩ | ⟨-, he⟩
  · omega
  · rw [he]
    exact cellsRead_placeBytes (font := s.font) cellsWf_nil (by omega) a

/-- Settles O55: no transaction writes FONT, and INIT and a LOAD that succeeds leave it below 0x050,
where a program never lies. -/
theorem stepKeepsTheParameterFont : Obligations.StepKeepsTheParameterFont := by
  intro s t h
  refine ⟨step_font h, ?_⟩
  rintro (⟨rest, hp⟩ | ⟨bytes, rest, hp, hle⟩) k
  · cases (step_of_cons hp).symm.trans h
    exact (memByte_init _ k.val).trans (dif_pos k.isLt)
  · cases (step_of_cons hp).symm.trans h
    refine (memByte_load _ hle k.val).trans ?_
    rw [if_neg (by omega), dif_pos k.isLt]

end Sys2Proof.Machine
end

section
/-! SUPPORT. A CYCLE and the host's transactions, one by one (R100-R111, R210, R230, R231), and the
statements they settle. -/

namespace Sys2Proof.Machine

/-! ## CYCLE -/

/-- A CYCLE in RUNNING whose word is an instruction runs it (R103). -/
theorem cycle_of_decoded {s : State} {i : Instr} (hrun : s.status = .running)
    (hpc : s.pc.toNat ≤ 0xFFE) (hdec : decode (wordAtPc s) = .ok i) :
    cycle s = exec i (clearRedraw s) := by
  have hfetch : fetch (clearRedraw s) = .ok (wordAtPc s) := fetch_of_le (clearRedraw s) hpc
  simp only [cycle_of_running hrun, fetchDecodeExecute, hfetch, hdec]

/-- A CYCLE in RUNNING whose word is no instruction records it (R110). -/
theorem cycle_of_unrecognized {s : State} {e : Unrecognized} (hrun : s.status = .running)
    (hpc : s.pc.toNat ≤ 0xFFE) (hdec : decode (wordAtPc s) = .error e) :
    cycle s = .next (invalidOpcode (wordAtPc s) (clearRedraw s)) := by
  have hfetch : fetch (clearRedraw s) = .ok (wordAtPc s) := fetch_of_le (clearRedraw s) hpc
  simp only [cycle_of_running hrun, fetchDecodeExecute, hfetch, hdec]

/-- A CYCLE in RUNNING that cannot fetch its word takes the fault (R105). -/
theorem cycle_of_fetchFault {s : State} (hrun : s.status = .running) (hpc : 0xFFF ≤ s.pc.toNat) :
    cycle s = .next (takeFault (.memOutOfRange (max s.pc.toNat 0x1000)) (clearRedraw s)) := by
  have hfetch := fetch_of_gt (clearRedraw s) hpc
  simp only [cycle_of_running hrun, fetchDecodeExecute, hfetch]
  rfl

/-- Settles O10: the step is the CYCLE, issued or implicit, and the CYCLE runs the decoded instruction. -/
theorem stepRunsTheDecodedInstruction : Obligations.StepRunsTheDecodedInstruction :=
  fun s _ hrun hpc hdec =>
    ⟨fun hp => (step_of_nil hp).trans (cycle_of_decoded hrun hpc hdec),
      fun rest hp => (step_of_cons hp).trans
        (cycle_of_decoded (s := { s with pending := rest }) hrun hpc hdec)⟩

/-- Settles O11: inside memory a fetch reads the two bytes, and past its end it is the fault of the first
address that does not exist. -/
theorem fetchIsBigEndianAndBounded : Obligations.FetchIsBigEndianAndBounded :=
  fun s => ⟨fun hpc => ⟨_, fetch_of_le s hpc, toNat_append_bytes ..⟩,
    fun ⟨hrun, hp⟩ hpc => (step_of_nil hp).trans (cycle_of_fetchFault hrun hpc)⟩

/-- Settles O12: the CYCLE appends the record and goes on. -/
theorem unrecognizedWordIsRecordedAndSkipped : Obligations.UnrecognizedWordIsRecordedAndSkipped :=
  fun _ _ ⟨hrun, hp⟩ hpc hdec => (step_of_nil hp).trans (cycle_of_unrecognized hrun hpc hdec)

/-- Settles O13: a CYCLE in FAULTED is no change. -/
theorem faultedCoreIgnoresCycle : Obligations.FaultedCoreIgnoresCycle :=
  fun s _ hf => ⟨fun hp => (step_of_nil hp).trans (cycle_of_faulted hf),
    fun rest hp => (step_of_cons hp).trans (cycle_of_faulted (s := { s with pending := rest }) hf)⟩

/-- Settles O23: step 1 of the CYCLE clears redraw, and of all that follows only a completed display
instruction sets it again. -/
theorem redrawTellsThatADisplayInstructionCompleted :
    Obligations.RedrawTellsThatADisplayInstructionCompleted := by
  rintro s t ⟨hrun, hp⟩ h
  rw [step_of_nil hp] at h
  by_cases hpc : s.pc.toNat ≤ 0xFFE
  · cases hdec : decode (wordAtPc s) with
    | error e =>
      cases (cycle_of_unrecognized hrun hpc hdec).symm.trans h
      simp
    | ok i =>
      rw [cycle_of_decoded hrun hpc hdec] at h
      rcases eq_of_exec_eq_next h with ⟨f, -, rfl⟩ | ⟨-, rfl⟩
      · simp
      · simp [completion_redraw, hrun, hpc]
  · cases (cycle_of_fetchFault hrun (by omega)).symm.trans h
    simp

/-! ## Which steps stop, and which leave FAULTED -/

theorem exec_eq_next (i : Instr) (s : State) : ∃ t, exec i s = .next t := by
  rcases exec_cases i s with ⟨f, -, he⟩ | ⟨-, he⟩ <;> exact ⟨_, he⟩

theorem cycle_eq_next (s : State) : ∃ t, cycle s = .next t := by
  rcases cycle_cases s with he | ⟨f, he⟩ | ⟨op, he⟩ | ⟨i, he⟩
  · exact ⟨_, he⟩
  · exact ⟨_, he⟩
  · exact ⟨_, he⟩
  · rw [he]
    exact exec_eq_next i _

/-- Settles O16: every transaction but SETKEY answers a next state, and SETKEY answers one for the keys
that exist. -/
theorem stepStopsOnlyOnSetKeyOutOfRange : Obligations.StepStopsOnlyOnSetKeyOutOfRange := by
  intro s
  cases hp : s.pending with
  | nil =>
    obtain ⟨t, ht⟩ := cycle_eq_next s
    exact .inl ⟨t, (step_of_nil hp).trans ht⟩
  | cons tr rest =>
    have hstep := step_of_cons hp
    cases tr with
    | cycle =>
      obtain ⟨t, ht⟩ := cycle_eq_next { s with pending := rest }
      exact .inl ⟨t, hstep.trans ht⟩
    | tick60 => exact .inl ⟨_, hstep⟩
    | init => exact .inl ⟨_, hstep⟩
    | load bytes => exact .inl ⟨_, hstep⟩
    | setKey k p =>
      by_cases hk : k < 16
      · exact .inl ⟨_, hstep.trans (dif_pos hk)⟩
      · exact .inr ⟨k, p, rest, rfl, by omega, hstep.trans (dif_neg hk)⟩

/-- The transactions that leave FAULTED: INIT, and a LOAD that succeeds (R102, R203). -/
def leavesFaulted : Transaction → Prop
  | .init => True
  | .load bytes => bytes.length ≤ 0xE00
  | _ => False

/-- In FAULTED a transaction keeps status, or leaves it for RUNNING. -/
theorem perform_status_of_faulted {tr : Transaction} {s t : State} {f : Fault}
    (hf : s.status = .faulted f) (h : perform tr s = .next t) :
    (¬ leavesFaulted tr ∧ t.status = .faulted f) ∨ (leavesFaulted tr ∧ t.status = .running) := by
  cases tr with
  | cycle => cases (cycle_of_faulted hf).symm.trans h; exact .inl ⟨id, hf⟩
  | tick60 => cases h; exact .inl ⟨id, hf⟩
  | setKey k p => obtain ⟨_, rfl⟩ := setKey_eq_next h; exact .inl ⟨id, hf⟩
  | init => cases h; exact .inr ⟨trivial, rfl⟩
  | load bytes =>
    cases h
    rcases load_cases bytes s with ⟨hgt, he⟩ | ⟨hle, he⟩ <;> rw [he]
    · exact .inl ⟨Nat.not_le.2 hgt, hf⟩
    · exact .inr ⟨hle, rfl⟩

/-- Settles O14: transaction by transaction. -/
theorem faultedIsLeftOnlyByInitOrLoad : Obligations.FaultedIsLeftOnlyByInitOrLoad := by
  intro s t f hf h
  cases hp : s.pending with
  | nil =>
    cases ((step_of_nil hp).trans (cycle_of_faulted hf)).symm.trans h
    simp [hf]
  | cons tr rest =>
    rw [step_of_cons hp] at h
    have hleaves : leavesFaulted tr ↔ (∃ rest', tr :: rest = .init :: rest') ∨
        ∃ bytes rest', tr :: rest = .load bytes :: rest' ∧ bytes.length ≤ 0xE00 := by
      cases tr <;> simp [leavesFaulted]
    rw [← hleaves]
    rcases perform_status_of_faulted (s := { s with pending := rest }) hf h with ⟨hl, ht⟩ | ⟨hl, ht⟩ <;>
      simp [hl, ht]

/-! ## INIT, LOAD, TICK60, SETKEY -/

theorem init_resetValues (s : State) : ResetValues (init s) := by
  have hregs (r : Reg) : readReg (init s) r = 0 := by simp [readReg, State.reset]
  have hstack (k : Fin 16) : (init s).stack[k.val]'k.isLt = 0 := by simp [State.reset]
  have hkeys (k : Fin 16) : (init s).key[k.val]'k.isLt = false := by simp [State.reset]
  exact ⟨hregs, rfl, rfl, hstack, rfl, rfl, rfl, fun _ => rfl, hkeys, rfl, memByte_init s, rfl⟩

/-- Settles O19: INIT writes the reset value of every field but the diagnostic stream, FONT, the count of
draws and the host's transactions; reset is itself a state after INIT. -/
theorem initResetsEveryPieceOfState : Obligations.InitResetsEveryPieceOfState :=
  ⟨init_resetValues State.reset,
    fun _ _ hp => ⟨_, step_of_cons hp, init_resetValues _, rfl, rfl, rfl⟩⟩

/-- The first fetch after a LOAD of two bytes or more reads them (R231). -/
theorem fetch_load {bytes : List Byte} (s : State) (hle : bytes.length ≤ 0xE00) (h2 : 2 ≤ bytes.length) :
    fetch (load bytes s).2 = .ok (bytes.getD 0 0 ++ bytes.getD 1 0) := by
  have hpc : (load bytes s).2.pc = 0x200#16 := by
    rcases load_cases bytes s with ⟨hgt, -⟩ | ⟨-, he⟩
    · omega
    · rw [he]; rfl
  rw [fetch_of_le _ (by rw [hpc]; decide), hpc, memByte_load s hle, memByte_load s hle]
  rw [if_pos (by simp; omega), if_pos (by simp; omega)]
  rfl

/-- Settles O20: LOAD is INIT with the bytes placed from 0x200 on, or no change at all. -/
theorem loadResetsAndPlacesTheProgram : Obligations.LoadResetsAndPlacesTheProgram := by
  intro bytes s
  refine ⟨fun hle => ?_, fun hgt => ?_, fun rest hp => step_of_cons hp⟩
  · have he : load bytes s =
        (.ok, { init s with mem := placeBytes s.font (init s).mem 0x200 bytes }) := by
      rcases load_cases bytes s with ⟨hgt, -⟩ | ⟨-, he⟩
      · omega
      · exact he
    have hmem := memByte_load s hle
    have hfetch := fetch_load s hle
    rw [he] at hmem hfetch
    exact ⟨_, he, rfl, hmem, hfetch⟩
  · rcases load_cases bytes s with ⟨-, he⟩ | ⟨hle, -⟩
    · exact he
    · omega

/-- A decrement floored at 0 is subtraction of naturals (R210). -/
theorem decrementTimer_toNat (b : Byte) : (decrementTimer b).toNat = b.toNat - 1 := by
  unfold decrementTimer
  split <;> bv_omega

/-- Settles O21: TICK60 writes the two timers and nothing else. -/
theorem tickDecrementsBothTimers : Obligations.TickDecrementsBothTimers :=
  fun _ _ hp => ⟨_, step_of_cons hp, decrementTimer_toNat _, decrementTimer_toNat _, rfl⟩

/-- Settles O22: SETKEY writes its key and nothing else. -/
theorem setKeySetsOneKey : Obligations.SetKeySetsOneKey := by
  intro s k p rest hp
  refine ⟨fun hk => ⟨_, (step_of_cons hp).trans (dif_pos hk), fun j => ?_, rfl⟩,
    fun hk => (step_of_cons hp).trans (dif_neg (Nat.not_lt.2 hk))⟩
  simp only [Vector.getElem_set, eq_comm]

end Sys2Proof.Machine
end

section
/-! SUPPORT. Jumps, calls, returns and skips one by one (R109, R140-R156), and the statements they settle. -/

namespace Sys2Proof.Machine

/-- Settles O32: the top nibble B alone selects Bnnn, and its meaning is one write of pc, the exact sum
cut to 16 bits. -/
theorem jumpV0AddsV0ToItsTarget : Obligations.JumpV0AddsV0ToItsTarget :=
  ⟨encodedBy_jpV0, fun _ _ => ⟨_, rfl, toNat_toWord _, rfl⟩⟩

/-- Settles O33: with room on the stack 2nnn writes the entry at sp, sp and pc; with none it faults. -/
theorem callPushesItsAddress : Obligations.CallPushesItsAddress := by
  refine ⟨encodedBy_call, fun nnn s => ⟨fun h => ⟨_, execCall_of_lt nnn s h, ?_, rfl, ?_, rfl⟩,
    execCall_of_eq nnn s⟩⟩
  · exact Vector.getElem_set_self _
  · intro k hk
    exact Vector.getElem_set_ne h _ hk.symm

/-- Settles O34: with an entry on the stack 00EE writes sp and pc; with none it faults. -/
theorem returnPopsTheAddress : Obligations.ReturnPopsTheAddress :=
  ⟨encodedBy_ret, fun s => ⟨fun h => ⟨_, execRet_of_pos s h, rfl, rfl, rfl⟩, execRet_of_zero s⟩⟩

/-- Settles O35: the entry a return pops is the one the call has pushed, the call's own address. -/
theorem returnGoesAfterTheCall : Obligations.ReturnGoesAfterTheCall := by
  intro nnn w v s t hsp h
  cases (execCall_of_lt nnn s hsp).symm.trans h
  refine ⟨_, execRet_of_pos _ (Nat.succ_pos _), ?_, rfl⟩
  exact congrArg (· + 2) (Vector.getElem_set_self _)

theorem exec_sneReg (x y : Reg) (s : State) : exec (.sneReg x y) s =
    .next { s with pc := if readReg s x ≠ readReg s y then s.pc + 4 else s.pc + 2 } :=
  congrArg Host.Outcome.next (skipIf_of_iff s bne_iff_ne)

/-- Settles O38: the top nibble 9 alone selects 9xy0, so its low nibble plays no part, and its meaning is
one write of pc, decided by comparing Vx with Vy. -/
theorem skipIfRegistersDiffer : Obligations.SkipIfRegistersDiffer := ⟨encodedBy_sneReg, exec_sneReg⟩

theorem exec_skp (x : Reg) (s : State) (h : (readReg s x).toNat < 16) : exec (.skp x) s =
    .next { s with pc := if s.key[(readReg s x).toNat]'h = true then s.pc + 4 else s.pc + 2 } :=
  (execSkp_of_lt x s h).trans (congrArg Host.Outcome.next (skipIf_of_iff s Iff.rfl))

theorem exec_sknp (x : Reg) (s : State) (h : (readReg s x).toNat < 16) : exec (.sknp x) s =
    .next { s with pc := if s.key[(readReg s x).toNat]'h = false then s.pc + 4 else s.pc + 2 } :=
  (execSknp_of_lt x s h).trans (congrArg Host.Outcome.next (skipIf_of_iff s (by simp)))

/-- Settles O39: with a key that exists each form is one write of pc, decided by that key; with another
Vx it faults. -/
theorem skipsReadingAKey : Obligations.SkipsReadingAKey :=
  ⟨encodedBy_skp, encodedBy_sknp, fun x s =>
    ⟨fun h => ⟨exec_skp x s h, exec_sknp x s h⟩, fun h => ⟨execSkp_of_ge x s h, execSknp_of_ge x s h⟩⟩⟩

end Sys2Proof.Machine
end

section
/-! SUPPORT. The instructions that write a flag and then their result, and Cxnn (R160, R167-R172, R181), and
the statements they settle. -/

namespace Sys2Proof.Machine

/-- An instruction that writes a flag and then its result leaves the result in Vx, the flag in VF where x
is not F, and every other register and all other state as it was, but for pc (R160, D10). -/
theorem exec_changes_only_flag_reg_pc {i : Instr} {s : State} {x : Reg} {flag b : Byte}
    (hexec : exec i s = .next (writeFlagThenResult s x flag b)) :
    ∃ t, exec i s = .next t ∧ readReg t x = b ∧ (x ≠ VF → readReg t VF = flag) ∧
      (∀ r, r ≠ x → r ≠ VF → readReg t r = readReg s r) ∧ t = { s with v := t.v, pc := s.pc + 2 } := by
  refine ⟨_, hexec, ?_, fun hx => ?_, fun r hx hf => ?_, rfl⟩
  · rw [readReg_writeFlagThenResult, if_pos rfl]
  · rw [readReg_writeFlagThenResult, if_neg hx.symm, if_pos rfl]
  · rw [readReg_writeFlagThenResult, if_neg hx, if_neg hf]

theorem flagByte_decide (p : Prop) [Decidable p] : flagByte (decide p) = if p then 1 else 0 := by
  simp [flagByte]

theorem flagByte_toNat (c : Bool) : (flagByte c).toNat = c.toNat := by cases c <;> rfl

theorem exec_addReg (x y : Reg) (s : State) : exec (.addReg x y) s =
    .next (writeFlagThenResult s x (carryFlag (readReg s x) (readReg s y))
      (toByte ((readReg s x).toNat + (readReg s y).toNat))) := rfl

theorem exec_subReg (x y : Reg) (s : State) : exec (.subReg x y) s =
    .next (writeFlagThenResult s x (noBorrowFlag (readReg s x) (readReg s y))
      (subByte (readReg s x) (readReg s y))) := rfl

theorem exec_subnReg (x y : Reg) (s : State) : exec (.subnReg x y) s =
    .next (writeFlagThenResult s x (noBorrowFlag (readReg s y) (readReg s x))
      (subByte (readReg s y) (readReg s x))) := rfl

theorem exec_shr (x y : Reg) (s : State) : exec (.shr x y) s =
    .next (writeFlagThenResult s x (lowBitFlag (readReg s x)) (readReg s x >>> 1)) := rfl

theorem exec_shl (x y : Reg) (s : State) : exec (.shl x y) s =
    .next (writeFlagThenResult s x (highBitFlag (readReg s x)) (readReg s x <<< 1)) := rfl

/-- Settles O42: the flag is the carry of the exact sum, and the result is that sum made a byte. -/
theorem addSetsTheCarry : Obligations.AddSetsTheCarry := by
  refine ⟨encodedBy_addReg, fun x y s => ?_⟩
  obtain ⟨t, hexec, hsum, hflag, hframe⟩ := exec_changes_only_flag_reg_pc (exec_addReg x y s)
  exact ⟨t, hexec, hsum ▸ toNat_toByte _, fun hx => (hflag hx).trans (flagByte_decide _), hframe⟩

/-- The exact difference made a byte is its residue modulo 256 (R168, R170). -/
theorem subByte_toNat (a b : Byte) : ((subByte a b).toNat : Int) = (a.toNat - b.toNat : Int) % 256 := by
  rw [subByte, BitVec.toNat_ofInt]
  exact Int.toNat_of_nonneg (Int.emod_nonneg _ (by decide))

/-- Settles O43: the flag is the strict comparison, and the result is the exact difference made a byte. -/
theorem subtractionsSetTheStrictComparison : Obligations.SubtractionsSetTheStrictComparison := by
  refine ⟨encodedBy_subReg, encodedBy_subnReg, fun x y s => ⟨?_, ?_⟩⟩
  · obtain ⟨t, hexec, hdiff, hflag, hframe⟩ := exec_changes_only_flag_reg_pc (exec_subReg x y s)
    exact ⟨t, hexec, hdiff ▸ subByte_toNat _ _, fun hx => (hflag hx).trans (flagByte_decide _), hframe⟩
  · obtain ⟨t, hexec, hdiff, hflag, hframe⟩ := exec_changes_only_flag_reg_pc (exec_subnReg x y s)
    exact ⟨t, hexec, hdiff ▸ subByte_toNat _ _, fun hx => (hflag hx).trans (flagByte_decide _), hframe⟩

theorem ushiftRight_one_toNat (b : Byte) : (b >>> 1).toNat = b.toNat / 2 := by
  simp [Nat.shiftRight_eq_div_pow]

theorem shiftLeft_one_toNat (b : Byte) : (b <<< 1).toNat = 2 * b.toNat % 256 := by
  simp [Nat.shiftLeft_eq, Nat.mul_comm]

theorem lowBitFlag_toNat (b : Byte) : (lowBitFlag b).toNat = b.toNat % 2 := by
  rw [lowBitFlag, flagByte_toNat, BitVec.getLsbD, Nat.toNat_testBit]
  simp

theorem highBitFlag_toNat (b : Byte) : (highBitFlag b).toNat = b.toNat / 128 := by
  rw [highBitFlag, flagByte_toNat, BitVec.getLsbD, Nat.toNat_testBit]
  have := b.isLt
  omega

/-- Settles O44: the flag is the bit shifted out of Vx, and the result is Vx halved or doubled. -/
theorem shiftsSetTheBitShiftedOut : Obligations.ShiftsSetTheBitShiftedOut := by
  refine ⟨encodedBy_shr, encodedBy_shl, fun x y s => ⟨?_, ?_⟩⟩
  · obtain ⟨t, hexec, hres, hflag, hframe⟩ := exec_changes_only_flag_reg_pc (exec_shr x y s)
    exact ⟨t, hexec, hres ▸ ushiftRight_one_toNat _, fun hx => hflag hx ▸ lowBitFlag_toNat _, hframe⟩
  · obtain ⟨t, hexec, hres, hflag, hframe⟩ := exec_changes_only_flag_reg_pc (exec_shl x y s)
    exact ⟨t, hexec, hres ▸ shiftLeft_one_toNat _, fun hx => hflag hx ▸ highBitFlag_toNat _, hframe⟩

theorem exec_rnd (x : Reg) (nn : Byte) (s : State) : exec (.rnd x nn) s =
    .next (advance (writeReg (drawRand8 s).2 x (Config.rand8 s.draws &&& nn))) := rfl

/-- Settles O45: Cxnn counts the draw and writes the masked byte into Vx. -/
theorem randomIsAMaskedFreeByte : Obligations.RandomIsAMaskedFreeByte := by
  refine ⟨encodedBy_rnd, fun x nn s => ?_⟩
  have hx : readReg (advance (writeReg (drawRand8 s).2 x (Config.rand8 s.draws &&& nn))) x =
      Config.rand8 s.draws &&& nn := readReg_writeReg_same ..
  refine ⟨_, exec_rnd x nn s, hx, ?_, fun r hr => readReg_writeReg_ne _ _ hr, rfl⟩
  rw [hx, BitVec.and_assoc, BitVec.and_not_self]
  exact BitVec.and_zero

theorem exec_addI (x : Reg) (s : State) : exec (.addI x) s =
    .next (advance (setI (writeReg s VF (indexOverflowFlag s.i (readReg s x)))
      (toWord (s.i.toNat + (readReg s x).toNat)))) := rfl

/-- Settles O47: VF takes the comparison of the exact sum with 0xFFF, and I that sum cut to 16 bits. -/
theorem indexAddSetsTheOverflow : Obligations.IndexAddSetsTheOverflow :=
  ⟨encodedBy_addI, fun x s => ⟨_, exec_addI x s, toNat_toWord _,
    (readReg_writeReg_same ..).trans (flagByte_decide _), fun _ hr => readReg_writeReg_ne _ _ hr, rfl⟩⟩

end Sys2Proof.Machine
end

section
/-! SUPPORT. Fx33, Fx55 and Fx65 (R58, R62, R183-R186, R241, R243): what a store leaves in memory byte by
byte, what a load leaves in the registers, and the statements they settle. -/

namespace Sys2Proof.Machine

/-! ## Stores -/

theorem byteAfterStore_inside (s : State) {n k : Nat} (stored : Nat → Byte) (h : k < n) :
    byteAfterStore s n stored (baseAddr s + k) = stored k := by
  rw [byteAfterStore, if_pos (by omega), Nat.add_sub_cancel_left]

theorem byteAfterStore_outside (s : State) {n a : Nat} (stored : Nat → Byte)
    (h : a < baseAddr s ∨ baseAddr s + n ≤ a) : byteAfterStore s n stored a = memByte s a := by
  rw [byteAfterStore, if_neg (by omega)]

/-- Placing the stored bytes at I is the store. -/
theorem memByte_placed {s : State} {bs : List Byte} {stored : Nat → Byte} (hwf : Memory.wf s.font s.mem)
    (hfits : baseAddr s + bs.length ≤ 0x1000) (hbytes : ∀ k < bs.length, bs.getD k 0 = stored k) (a : Nat) :
    memByte (setMem s (placeBytes s.font s.mem (baseAddr s) bs)) a =
      byteAfterStore s bs.length stored a := by
  rw [memByte_setMem_placeBytes s hwf hfits, byteAfterStore]
  split
  · exact hbytes _ (by omega)
  · rfl

theorem decimalDigits_getD (b : Byte) : ∀ k < 3, (decimalDigits b).getD k 0 = digitByte b k
  | 0, _ => rfl
  | 1, _ => rfl
  | 2, _ => rfl

/-- Each decimal digit is below 256, so its byte is exact. -/
theorem digitByte_toNat (b : Byte) (k : Nat) : (digitByte b k).toNat =
    if k = 0 then b.toNat / 100 else if k = 1 then b.toNat / 10 % 10 else b.toNat % 10 := by
  have := b.isLt
  rw [digitByte, BitVec.toNat_ofNat, Nat.mod_eq_of_lt]
  split_ifs <;> omega

/-- Fx33 inside memory (R183). -/
theorem exec_ldB {x : Reg} {s : State} (hwf : Memory.wf s.font s.mem) (hfits : baseAddr s + 2 < 0x1000) :
    ∃ t, exec (.ldB x) s = .next t ∧
      (∀ a, memByte t a = byteAfterStore s 3 (digitByte (readReg s x)) a) ∧
      t = { s with mem := t.mem, pc := s.pc + 2 } :=
  ⟨_, execLdB_of_le x s (by omega),
    memByte_placed (bs := decimalDigits (readReg s x)) hwf (by rw [decimalDigits_length]; omega)
      (decimalDigits_getD _), rfl⟩

theorem readRegs_getD_ofNat (s : State) (x : Reg) (k : Nat) (h : k < (readRegs s x).length) :
    (readRegs s x).getD k 0 = readReg s (Fin.ofNat 16 k) := by
  rw [readRegs_length] at h
  rw [readRegs_getD s x (by omega)]
  congr 1
  exact Fin.ext (Nat.mod_eq_of_lt (by omega)).symm

theorem postIncrement_toNat (i : Word) (k : Nat) : (postIncrement i k).toNat = (i.toNat + k) % 65536 :=
  toNat_toWord _

/-- Fx55 inside memory (R184). -/
theorem exec_storeRegs {x : Reg} {s : State} (hwf : Memory.wf s.font s.mem)
    (hfits : baseAddr s + x.val < 0x1000) :
    ∃ t, exec (.storeRegs x) s = .next t ∧
      (∀ a, memByte t a = byteAfterStore s (x.val + 1) (fun k => readReg s (Fin.ofNat 16 k)) a) ∧
      t = { s with mem := t.mem, i := postIncrement s.i (x.val + 1), pc := s.pc + 2 } := by
  refine ⟨_, execStoreRegs_of_le x s (by omega), fun a => ?_, rfl⟩
  have hplaced := memByte_placed (bs := readRegs s x) hwf (by rw [readRegs_length]; omega)
    (readRegs_getD_ofNat s x) a
  rwa [readRegs_length] at hplaced

/-- Settles O48: the three bytes at I are the digits, every other byte is as it was, and with a byte
outside memory nothing is written. -/
theorem decimalDigitsAreStored : Obligations.DecimalDigitsAreStored := by
  refine ⟨encodedBy_ldB, fun x s => ⟨fun hwf hfits => ?_, fun hgt => execLdB_of_gt x s (by omega)⟩⟩
  obtain ⟨t, hexec, hmem, hframe⟩ := exec_ldB (x := x) hwf hfits
  have hdigit {k : Nat} (hk : k < 3) : memByte t (baseAddr s + k) = digitByte (readReg s x) k :=
    (hmem _).trans (byteAfterStore_inside s _ hk)
  refine ⟨t, hexec, ?_, ?_, ?_, fun a ha => ?_, hframe⟩
  · exact (congrArg BitVec.toNat (hdigit (k := 0) (by decide))).trans (digitByte_toNat _ 0)
  · exact (congrArg BitVec.toNat (hdigit (k := 1) (by decide))).trans (digitByte_toNat _ 1)
  · exact (congrArg BitVec.toNat (hdigit (k := 2) (by decide))).trans (digitByte_toNat _ 2)
  · exact (hmem a).trans (byteAfterStore_outside s _ (by omega))

/-- The bytes Fx55 stores are the registers, in order. -/
theorem memByte_stored {x : Reg} {s t : State}
    (hmem : ∀ a, memByte t a = byteAfterStore s (x.val + 1) (fun k => readReg s (Fin.ofNat 16 k)) a)
    {k : Reg} (hk : k.val ≤ x.val) : memByte t (baseAddr s + k.val) = readReg s k := by
  rw [hmem, byteAfterStore_inside s _ (by omega)]
  congr 1
  exact Fin.ext (Nat.mod_eq_of_lt k.isLt)

/-- Settles O49: the x + 1 bytes at I are the registers, every other byte is as it was, and with a byte
outside memory nothing is written. -/
theorem registersAreStored : Obligations.RegistersAreStored := by
  refine ⟨encodedBy_storeRegs, fun x s => ⟨fun hwf hfits => ?_,
    fun hgt => execStoreRegs_of_gt x s (by omega)⟩⟩
  obtain ⟨t, hexec, hmem, hframe⟩ := exec_storeRegs (x := x) hwf hfits
  have hi : t.i = postIncrement s.i (x.val + 1) := by rw [hframe]
  refine ⟨t, hexec, fun k => memByte_stored hmem, fun a ha => ?_, ?_, ?_⟩
  · exact (hmem a).trans (byteAfterStore_outside s _ (by omega))
  · rw [hi]
    exact postIncrement_toNat ..
  · rwa [hi]

/-- A fetch at pc + 2 after a store reads what the store has left there (R62, R241). -/
theorem fetch_after_store {s t : State} {n : Nat} {stored : Nat → Byte} (hpc : (s.pc + 2).toNat ≤ 0xFFE)
    (ht : t.pc = s.pc + 2) (hmem : ∀ a, memByte t a = byteAfterStore s n stored a) :
    fetch t = .ok (byteAfterStore s n stored (s.pc + 2).toNat ++
      byteAfterStore s n stored ((s.pc + 2).toNat + 1)) := by
  rw [← ht] at hpc ⊢
  rw [fetch_of_le t hpc, hmem, hmem]

/-- Settles O52: the next fetch is at pc + 2, and reads memory as the store has left it. -/
theorem storeIsSeenByTheNextFetch : Obligations.StoreIsSeenByTheNextFetch := by
  refine fun x s hwf hpc => ⟨fun hfits => ?_, fun hfits => ?_⟩
  · obtain ⟨t, hexec, hmem, hframe⟩ := exec_storeRegs (x := x) hwf hfits
    exact ⟨t, hexec, fetch_after_store hpc (by rw [hframe]) hmem⟩
  · obtain ⟨t, hexec, hmem, hframe⟩ := exec_ldB (x := x) hwf hfits
    exact ⟨t, hexec, fetch_after_store hpc (by rw [hframe]) hmem⟩

/-! ## Loads -/

/-- The registers V0 to Vx take the bytes at I in order, and the others stay (R185). -/
theorem readReg_loaded (s : State) (x k : Reg) :
    readReg (writeRegs s 0 (dataBytes s (x.val + 1))) k =
      if k.val ≤ x.val then memByte s (baseAddr s + k.val) else readReg s k := by
  rw [readReg_writeRegs _ _ _ (by simp), dataBytes_length]
  by_cases hk : k.val ≤ x.val
  · rw [if_pos (by omega), if_pos hk]
    exact dataBytes_getD s (Nat.lt_succ_of_le hk)
  · rw [if_neg (by omega), if_neg hk]

/-- Fx65 inside memory (R185). -/
theorem exec_loadRegs {x : Reg} {s : State} (hfits : baseAddr s + x.val < 0x1000) :
    ∃ t, exec (.loadRegs x) s = .next t ∧
      (∀ k : Reg, readReg t k = if k.val ≤ x.val then memByte s (baseAddr s + k.val) else readReg s k) ∧
      t = { s with v := t.v, i := postIncrement s.i (x.val + 1), pc := s.pc + 2 } := by
  refine ⟨_, execLoadRegs_of_le x s (by omega), readReg_loaded s x, ?_⟩
  rw [writeRegs_rest]
  rfl

/-- Settles O50: V0 to Vx take the bytes at I, nothing else but I and pc changes, and with a byte outside
memory nothing is written. -/
theorem registersAreLoaded : Obligations.RegistersAreLoaded := by
  refine ⟨encodedBy_loadRegs, fun x s => ⟨fun hfits => ?_, fun hgt => execLoadRegs_of_gt x s (by omega)⟩⟩
  obtain ⟨t, hexec, hregs, hframe⟩ := exec_loadRegs (x := x) hfits
  have hi : t.i = postIncrement s.i (x.val + 1) := by rw [hframe]
  refine ⟨t, hexec, fun k hk => (hregs k).trans (if_pos hk),
    fun k hk => (hregs k).trans (if_neg (by omega)), ?_, ?_⟩
  · rw [hi]
    exact postIncrement_toNat ..
  · rwa [hi]

/-- Settles O51: the bytes loaded are the bytes stored, and those are the registers. -/
theorem storeThenLoadReproducesTheRegisters : Obligations.StoreThenLoadReproducesTheRegisters := by
  intro x v s t hwf hfits hstore
  obtain ⟨t', hexec, hmem, -⟩ := exec_storeRegs (x := x) hwf hfits
  cases hexec.symm.trans hstore
  obtain ⟨u, hload, hregs, -⟩ := exec_loadRegs (x := x) (s := { t with v := v, i := s.i }) hfits
  refine ⟨u, hload, fun k => ?_⟩
  rw [hregs]
  split
  · exact memByte_stored hmem ‹_›
  · rfl

end Sys2Proof.Machine
end

section
/-! SUPPORT. The display instructions (R130-R133) and Fx0A (R194), and the statements they settle. -/

namespace Sys2Proof.Machine

/-- Settles O29: 00E0 lists no pixel, sets redraw and goes on. -/
theorem clearTurnsEveryPixelOff : Obligations.ClearTurnsEveryPixelOff :=
  ⟨encodedBy_cls, fun _ => ⟨_, rfl, fun _ => rfl, rfl⟩⟩

/-- Which pixels a sprite covers depends on its n rows only. -/
theorem spriteCovers_congr {rows rows' : Nat → Byte} {n : Nat} (h : ∀ j < n, rows j = rows' j)
    (px py X Y : Nat) : spriteCovers px py rows n X Y ↔ spriteCovers px py rows' n X Y := by
  refine and_congr_right fun _ => and_congr_right fun _ => and_congr_right fun hY =>
    and_congr_right fun hn => ?_
  rw [h _ (by omega)]

/-- The sprite Dxyn draws has the bytes at I as its rows. -/
theorem spriteCovers_dataBytes (s : State) (n px py X Y : Nat) :
    spriteCovers px py (fun j => (dataBytes s n).getD j 0) (dataBytes s n).length X Y ↔
      spriteCovers px py (fun j => memByte s (baseAddr s + j)) n X Y := by
  rw [dataBytes_length]
  exact spriteCovers_congr (fun j hj => dataBytes_getD s hj) px py X Y

theorem flagByte_zero_or_one (c : Bool) : flagByte c = 0 ∨ flagByte c = 1 := by cases c <;> decide

theorem flagByte_eq_one (c : Bool) : flagByte c = 1 ↔ c = true := by cases c <;> decide

/-- Settles O30: the n bytes at I are read before anything is written; drawing them toggles the pixels the
sprite covers and collects the collision; VF takes the collision after the coordinates are read. -/
theorem drawTogglesTheSpritesPixels : Obligations.DrawTogglesTheSpritesPixels := by
  refine ⟨encodedBy_drw, fun x y n s => ⟨fun hwf hbin hfits => ?_, execDrw_of_gt x y n s⟩⟩
  obtain ⟨-, -, hpixels, hhit⟩ := drawRows_spec (readReg s x).toNat (readReg s y).toNat (dataBytes s n)
    (s.disp, false) hwf hbin
  simp only [spriteCovers_dataBytes, Bool.false_eq_true, false_or] at hpixels hhit
  refine ⟨_, execDrw_of_le x y n s hfits, hpixels, ?_, ?_, fun r hr => readReg_writeReg_ne _ _ hr, rfl⟩
  · rw [readReg_advance, readReg_writeReg_same, flagByte_eq_one]
    exact hhit
  · rw [readReg_advance, readReg_writeReg_same]
    exact flagByte_zero_or_one _

/-- Any key of a set is the choice of some index (D17). -/
theorem exists_pickKey {down : List (Fin 16)} {k : Fin 16} (h : k ∈ down) :
    ∃ index, pickKey index down = some k := by
  match down, h with
  | [a], h => exact ⟨0, by rw [List.mem_singleton.1 h, pickKey]⟩
  | a :: b :: rest, h =>
    obtain ⟨index, hlt, rfl⟩ := List.getElem_of_mem h
    refine ⟨index, ?_⟩
    have hmod : index % (rest.length + 2) = index := Nat.mod_eq_of_lt hlt
    rw [pickKey, hmod, List.getD_eq_getElem _ _ hlt]

/-- The index of a key fits a byte. -/
theorem toByte_key_toNat (k : Fin 16) : (toByte k.val).toNat = k.val :=
  (toNat_toByte _).trans (Nat.mod_eq_of_lt (by omega))

/-- Settles O54: with no key down the state is as it was, else a key that is down is drawn, counted and
written into Vx; no key of a set is out of the draw's reach. -/
theorem waitTakesAKeyThatIsDown : Obligations.WaitTakesAKeyThatIsDown := by
  refine ⟨encodedBy_ldVxK, fun x s => ⟨fun hup => ?_, fun ⟨k, hdown⟩ => ?_⟩, fun _ _ => exists_pickKey⟩
  · rcases execLdVxK_cases x s with ⟨-, hexec⟩ | ⟨k, hdown, -⟩
    · exact hexec
    · simp [hup k] at hdown
  · rcases execLdVxK_cases x s with ⟨hup, -⟩ | ⟨k', hdown', hexec⟩
    · simp [hup k] at hdown
    · exact ⟨_, k', hexec, hdown', (congrArg BitVec.toNat (readReg_writeReg_same ..)).trans
        (toByte_key_toNat k'), fun r hr => readReg_writeReg_ne _ _ hr, rfl⟩

end Sys2Proof.Machine
end
